-- ==== Sys2Proof/Word.lean ====
section
/-! DEFINITION. The word types of Virgule (`00_scope.md` R7, R9). -/

namespace Sys2Proof

/-- A 32-bit register value, address, immediate or instruction word (R7: every register is 32 bits
wide); `+` and `-` on it are taken modulo 2^32 (R10). -/
abbrev Word := BitVec 32

/-- The 8-bit datum an address names (R40, R41). -/
abbrev Byte := BitVec 8

/-- A register number: the value of one of the 5-bit fields `rd`, `rs1`, `rs2` (R20, R60). -/
abbrev RegId := BitVec 5

/-- A shift amount: the 5-bit field `inst[24:20]` of a shift-immediate (R68). -/
abbrev Shamt := BitVec 5

end Sys2Proof
end

