-- ==== Sys2Proof/Syntax.lean ====
section
/-! DEFINITION. The 38 instructions of Virgule, one constructor per row of the opcode table, in its
order (`30_encoding.md` R72). Operands stand in the order of the source's syntax (R79); `imm` is the decoded
32-bit immediate of R63 to R67 (R80), `shamt` the 5-bit shift amount of R68. -/

namespace Sys2Proof

inductive Instr where
  | lui   (rd : RegId) (imm : Word)
  | auipc (rd : RegId) (imm : Word)
  | jal   (rd : RegId) (imm : Word)
  | jalr  (rd rs1 : RegId) (imm : Word)
  | beq   (rs1 rs2 : RegId) (imm : Word)
  | bne   (rs1 rs2 : RegId) (imm : Word)
  | blt   (rs1 rs2 : RegId) (imm : Word)
  | bge   (rs1 rs2 : RegId) (imm : Word)
  | bltu  (rs1 rs2 : RegId) (imm : Word)
  | bgeu  (rs1 rs2 : RegId) (imm : Word)
  | lb    (rd rs1 : RegId) (imm : Word)
  | lh    (rd rs1 : RegId) (imm : Word)
  | lw    (rd rs1 : RegId) (imm : Word)
  | lbu   (rd rs1 : RegId) (imm : Word)
  | lhu   (rd rs1 : RegId) (imm : Word)
  | sb    (rs2 rs1 : RegId) (imm : Word)
  | sh    (rs2 rs1 : RegId) (imm : Word)
  | sw    (rs2 rs1 : RegId) (imm : Word)
  | addi  (rd rs1 : RegId) (imm : Word)
  | slli  (rd rs1 : RegId) (shamt : Shamt)
  | slti  (rd rs1 : RegId) (imm : Word)
  | sltiu (rd rs1 : RegId) (imm : Word)
  | xori  (rd rs1 : RegId) (imm : Word)
  | srli  (rd rs1 : RegId) (shamt : Shamt)
  | srai  (rd rs1 : RegId) (shamt : Shamt)
  | ori   (rd rs1 : RegId) (imm : Word)
  | andi  (rd rs1 : RegId) (imm : Word)
  | add   (rd rs1 rs2 : RegId)
  | sub   (rd rs1 rs2 : RegId)
  | sll   (rd rs1 rs2 : RegId)
  | slt   (rd rs1 rs2 : RegId)
  | sltu  (rd rs1 rs2 : RegId)
  | xor   (rd rs1 rs2 : RegId)
  | srl   (rd rs1 rs2 : RegId)
  | sra   (rd rs1 rs2 : RegId)
  | or    (rd rs1 rs2 : RegId)
  | and   (rd rs1 rs2 : RegId)
  | mret
  deriving DecidableEq, Repr

end Sys2Proof
end

