-- ==== Sys2Proof/WellFormed.lean ====
section
/-! DEFINITION. Which immediates an encoding of each format can carry (`30_encoding.md` R63 to R67). Register
numbers and shift amounts are 5-bit by their type. -/

namespace Sys2Proof

/-- The range of the I- and S-immediates: -2048 to 2047 (R63, R64). -/
def immFits12 (imm : Word) : Bool := decide (-2048 ≤ imm.toInt ∧ imm.toInt ≤ 2047)

/-- The range of the B-immediate: -4096 to 4094, even values only (R65). -/
def immFitsB (imm : Word) : Bool :=
  decide (-4096 ≤ imm.toInt ∧ imm.toInt ≤ 4094 ∧ imm.toInt % 2 = 0)

/-- The values of the U-immediate: multiples of 4096 (R66). -/
def immFitsU (imm : Word) : Bool := decide (imm.toNat % 4096 = 0)

/-- The range of the J-immediate: -1048576 to 1048574, even values only (R67). -/
def immFitsJ (imm : Word) : Bool :=
  decide (-1048576 ≤ imm.toInt ∧ imm.toInt ≤ 1048574 ∧ imm.toInt % 2 = 0)

/-- An instruction is well formed when its immediate is one that its format can encode. -/
def Instr.wf : Instr → Bool
  | .lui _ imm => immFitsU imm
  | .auipc _ imm => immFitsU imm
  | .jal _ imm => immFitsJ imm
  | .jalr _ _ imm => immFits12 imm
  | .beq _ _ imm => immFitsB imm
  | .bne _ _ imm => immFitsB imm
  | .blt _ _ imm => immFitsB imm
  | .bge _ _ imm => immFitsB imm
  | .bltu _ _ imm => immFitsB imm
  | .bgeu _ _ imm => immFitsB imm
  | .lb _ _ imm => immFits12 imm
  | .lh _ _ imm => immFits12 imm
  | .lw _ _ imm => immFits12 imm
  | .lbu _ _ imm => immFits12 imm
  | .lhu _ _ imm => immFits12 imm
  | .sb _ _ imm => immFits12 imm
  | .sh _ _ imm => immFits12 imm
  | .sw _ _ imm => immFits12 imm
  | .addi _ _ imm => immFits12 imm
  | .slli _ _ _ => true
  | .slti _ _ imm => immFits12 imm
  | .sltiu _ _ imm => immFits12 imm
  | .xori _ _ imm => immFits12 imm
  | .srli _ _ _ => true
  | .srai _ _ _ => true
  | .ori _ _ imm => immFits12 imm
  | .andi _ _ imm => immFits12 imm
  | .add _ _ _ => true
  | .sub _ _ _ => true
  | .sll _ _ _ => true
  | .slt _ _ _ => true
  | .sltu _ _ _ => true
  | .xor _ _ _ => true
  | .srl _ _ _ => true
  | .sra _ _ _ => true
  | .or _ _ _ => true
  | .and _ _ _ => true
  | .mret => true

end Sys2Proof
end

