-- ==== Sys2Proof/Decode.lean ====
section
/-! DEFINITION. From an instruction word to an instruction and back (`30_encoding.md` R60 to R78). -/

namespace Sys2Proof

/-! Fields (R60). -/

def opcode (w : Word) : BitVec 7 := w.extractLsb' 0 7
def rdField (w : Word) : RegId := w.extractLsb' 7 5
def funct3 (w : Word) : BitVec 3 := w.extractLsb' 12 3
def rs1Field (w : Word) : RegId := w.extractLsb' 15 5
def rs2Field (w : Word) : RegId := w.extractLsb' 20 5
def funct7 (w : Word) : BitVec 7 := w.extractLsb' 25 7

/-! Immediates (R62 to R67). -/

/-- I-immediate (R63): `sext_12(inst[31:20])`. -/
def immI (w : Word) : Word := (w.extractLsb' 20 12).signExtend 32

/-- S-immediate (R64): `sext_12({inst[31:25], inst[11:7]})`. -/
def immS (w : Word) : Word := (w.extractLsb' 25 7 ++ w.extractLsb' 7 5).signExtend 32

/-- B-immediate (R65): `sext_13({inst[31], inst[7], inst[30:25], inst[11:8], 0})`. -/
def immB (w : Word) : Word :=
  (w.extractLsb' 31 1 ++ w.extractLsb' 7 1 ++ w.extractLsb' 25 6 ++ w.extractLsb' 8 4
    ++ 0#1).signExtend 32

/-- U-immediate (R66): `{inst[31:12], 0x000}`. -/
def immU (w : Word) : Word := w.extractLsb' 12 20 ++ 0#12

/-- J-immediate (R67): `sext_21({inst[31], inst[19:12], inst[20], inst[30:25], inst[24:21], 0})`. -/
def immJ (w : Word) : Word :=
  (w.extractLsb' 31 1 ++ w.extractLsb' 12 8 ++ w.extractLsb' 20 1 ++ w.extractLsb' 25 6
    ++ w.extractLsb' 21 4 ++ 0#1).signExtend 32

/-! Decoding (R69, R70). -/

/-- Why bytes are no instruction: the cases a to h of the unlisted encodings (R74), and fewer than the four
bytes of an instruction (R78). -/
inductive DecodeError where
  /-- R74 a: the opcode is none of the ten retained ones -/
  | unlistedOpcode
  /-- R74 b: JALR with `funct3 /= 000` -/
  | unlistedJalr
  /-- R74 c: BRANCH with `funct3` 010 or 011 -/
  | unlistedBranch
  /-- R74 d: LOAD with `funct3` 011, 110 or 111 -/
  | unlistedLoad
  /-- R74 e: STORE with `funct3` 011 to 111 -/
  | unlistedStore
  /-- R74 f: a shift-immediate with a `funct7` the list does not have -/
  | unlistedShift
  /-- R74 g: OP with an unlisted pair (`funct7`, `funct3`) -/
  | unlistedOp
  /-- R74 h: a SYSTEM word other than MRET's -/
  | unlistedSystem
  /-- fewer than four bytes were given -/
  | truncated
  deriving DecidableEq, Repr

/-- BRANCH group: `funct3` selects (R70). -/
def decodeBranch (w : Word) : Except DecodeError Instr :=
  match funct3 w with
  | 0b000#3 => .ok (.beq (rs1Field w) (rs2Field w) (immB w))
  | 0b001#3 => .ok (.bne (rs1Field w) (rs2Field w) (immB w))
  | 0b100#3 => .ok (.blt (rs1Field w) (rs2Field w) (immB w))
  | 0b101#3 => .ok (.bge (rs1Field w) (rs2Field w) (immB w))
  | 0b110#3 => .ok (.bltu (rs1Field w) (rs2Field w) (immB w))
  | 0b111#3 => .ok (.bgeu (rs1Field w) (rs2Field w) (immB w))
  | _ => .error .unlistedBranch

/-- LOAD group: `funct3` selects (R70). -/
def decodeLoad (w : Word) : Except DecodeError Instr :=
  match funct3 w with
  | 0b000#3 => .ok (.lb (rdField w) (rs1Field w) (immI w))
  | 0b001#3 => .ok (.lh (rdField w) (rs1Field w) (immI w))
  | 0b010#3 => .ok (.lw (rdField w) (rs1Field w) (immI w))
  | 0b100#3 => .ok (.lbu (rdField w) (rs1Field w) (immI w))
  | 0b101#3 => .ok (.lhu (rdField w) (rs1Field w) (immI w))
  | _ => .error .unlistedLoad

/-- STORE group: `funct3` selects (R70). -/
def decodeStore (w : Word) : Except DecodeError Instr :=
  match funct3 w with
  | 0b000#3 => .ok (.sb (rs2Field w) (rs1Field w) (immS w))
  | 0b001#3 => .ok (.sh (rs2Field w) (rs1Field w) (immS w))
  | 0b010#3 => .ok (.sw (rs2Field w) (rs1Field w) (immS w))
  | _ => .error .unlistedStore

/-- OP-IMM group: `funct3` selects, and for the shifts `funct7` as well (R68, R70). -/
def decodeOpImm (w : Word) : Except DecodeError Instr :=
  match funct3 w with
  | 0b000#3 => .ok (.addi (rdField w) (rs1Field w) (immI w))
  | 0b010#3 => .ok (.slti (rdField w) (rs1Field w) (immI w))
  | 0b011#3 => .ok (.sltiu (rdField w) (rs1Field w) (immI w))
  | 0b100#3 => .ok (.xori (rdField w) (rs1Field w) (immI w))
  | 0b110#3 => .ok (.ori (rdField w) (rs1Field w) (immI w))
  | 0b111#3 => .ok (.andi (rdField w) (rs1Field w) (immI w))
  | 0b001#3 =>
    match funct7 w with
    | 0b0000000#7 => .ok (.slli (rdField w) (rs1Field w) (rs2Field w))
    | _ => .error .unlistedShift
  | 0b101#3 =>
    match funct7 w with
    | 0b0000000#7 => .ok (.srli (rdField w) (rs1Field w) (rs2Field w))
    | 0b0100000#7 => .ok (.srai (rdField w) (rs1Field w) (rs2Field w))
    | _ => .error .unlistedShift
  | _ => .error .unlistedShift -- no ninth value of three bits

/-- OP group: the pair (`funct7`, `funct3`) selects (R70, R140). -/
def decodeOp (w : Word) : Except DecodeError Instr :=
  match funct7 w with
  | 0b0000000#7 =>
    match funct3 w with
    | 0b000#3 => .ok (.add (rdField w) (rs1Field w) (rs2Field w))
    | 0b001#3 => .ok (.sll (rdField w) (rs1Field w) (rs2Field w))
    | 0b010#3 => .ok (.slt (rdField w) (rs1Field w) (rs2Field w))
    | 0b011#3 => .ok (.sltu (rdField w) (rs1Field w) (rs2Field w))
    | 0b100#3 => .ok (.xor (rdField w) (rs1Field w) (rs2Field w))
    | 0b101#3 => .ok (.srl (rdField w) (rs1Field w) (rs2Field w))
    | 0b110#3 => .ok (.or (rdField w) (rs1Field w) (rs2Field w))
    | 0b111#3 => .ok (.and (rdField w) (rs1Field w) (rs2Field w))
    | _ => .error .unlistedOp -- no ninth value of three bits
  | 0b0100000#7 =>
    match funct3 w with
    | 0b000#3 => .ok (.sub (rdField w) (rs1Field w) (rs2Field w))
    | 0b101#3 => .ok (.sra (rdField w) (rs1Field w) (rs2Field w))
    | _ => .error .unlistedOp
  | _ => .error .unlistedOp

/-- JALR: `funct3 = 000` selects (R70). -/
def decodeJalr (w : Word) : Except DecodeError Instr :=
  match funct3 w with
  | 0b000#3 => .ok (.jalr (rdField w) (rs1Field w) (immI w))
  | _ => .error .unlistedJalr

/-- The one word that is MRET (R73, decision D5, log 13). -/
def mretWord : Word := 0x30200073#32

/-- SYSTEM: the whole word selects (R70, R73). -/
def decodeSystem (w : Word) : Except DecodeError Instr :=
  if w = mretWord then .ok .mret else .error .unlistedSystem

/-- The decoding procedure of R70; a word that R72 does not list is rejected by its case of R74. -/
def decode (w : Word) : Except DecodeError Instr :=
  match opcode w with
  | 0b0000011#7 => decodeLoad w
  | 0b0010011#7 => decodeOpImm w
  | 0b0010111#7 => .ok (.auipc (rdField w) (immU w))
  | 0b0100011#7 => decodeStore w
  | 0b0110011#7 => decodeOp w
  | 0b0110111#7 => .ok (.lui (rdField w) (immU w))
  | 0b1100011#7 => decodeBranch w
  | 0b1100111#7 => decodeJalr w
  | 0b1101111#7 => .ok (.jal (rdField w) (immJ w))
  | 0b1110011#7 => decodeSystem w
  | _ => .error .unlistedOpcode

/-- The instruction word at four bytes, the least significant byte first (`20_memory.md` R42, R47). -/
def wordOfBytes (b0 b1 b2 b3 : Byte) : Word := b3 ++ b2 ++ b1 ++ b0

/-- The decoder on any bytes: an instruction and the bytes after it, or why there is none. -/
def decodeBytes : List Byte → Except DecodeError (Instr × List Byte)
  | b0 :: b1 :: b2 :: b3 :: rest => (decode (wordOfBytes b0 b1 b2 b3)).map fun i => (i, rest)
  | _ => .error .truncated

/-! Encoding, from the formats of R61. -/

/-- Format R. -/
def encodeR (f7 : BitVec 7) (rs2 rs1 : RegId) (f3 : BitVec 3) (rd : RegId) (op : BitVec 7) : Word :=
  f7 ++ rs2 ++ rs1 ++ f3 ++ rd ++ op

/-- Format I. -/
def encodeI (imm : Word) (rs1 : RegId) (f3 : BitVec 3) (rd : RegId) (op : BitVec 7) : Word :=
  imm.extractLsb' 0 12 ++ rs1 ++ f3 ++ rd ++ op

/-- Format S. -/
def encodeS (imm : Word) (rs2 rs1 : RegId) (f3 : BitVec 3) (op : BitVec 7) : Word :=
  imm.extractLsb' 5 7 ++ rs2 ++ rs1 ++ f3 ++ imm.extractLsb' 0 5 ++ op

/-- Format B. -/
def encodeB (imm : Word) (rs2 rs1 : RegId) (f3 : BitVec 3) (op : BitVec 7) : Word :=
  imm.extractLsb' 12 1 ++ imm.extractLsb' 5 6 ++ rs2 ++ rs1 ++ f3 ++ imm.extractLsb' 1 4
    ++ imm.extractLsb' 11 1 ++ op

/-- Format U. -/
def encodeU (imm : Word) (rd : RegId) (op : BitVec 7) : Word :=
  imm.extractLsb' 12 20 ++ rd ++ op

/-- Format J. -/
def encodeJ (imm : Word) (rd : RegId) (op : BitVec 7) : Word :=
  imm.extractLsb' 20 1 ++ imm.extractLsb' 5 6 ++ imm.extractLsb' 1 4 ++ imm.extractLsb' 11 1
    ++ imm.extractLsb' 12 8 ++ rd ++ op

/-- The one word of an instruction (R60, R72). -/
def encode : Instr → Word
  | .lui rd imm => encodeU imm rd 0b0110111#7
  | .auipc rd imm => encodeU imm rd 0b0010111#7
  | .jal rd imm => encodeJ imm rd 0b1101111#7
  | .jalr rd rs1 imm => encodeI imm rs1 0b000#3 rd 0b1100111#7
  | .beq rs1 rs2 imm => encodeB imm rs2 rs1 0b000#3 0b1100011#7
  | .bne rs1 rs2 imm => encodeB imm rs2 rs1 0b001#3 0b1100011#7
  | .blt rs1 rs2 imm => encodeB imm rs2 rs1 0b100#3 0b1100011#7
  | .bge rs1 rs2 imm => encodeB imm rs2 rs1 0b101#3 0b1100011#7
  | .bltu rs1 rs2 imm => encodeB imm rs2 rs1 0b110#3 0b1100011#7
  | .bgeu rs1 rs2 imm => encodeB imm rs2 rs1 0b111#3 0b1100011#7
  | .lb rd rs1 imm => encodeI imm rs1 0b000#3 rd 0b0000011#7
  | .lh rd rs1 imm => encodeI imm rs1 0b001#3 rd 0b0000011#7
  | .lw rd rs1 imm => encodeI imm rs1 0b010#3 rd 0b0000011#7
  | .lbu rd rs1 imm => encodeI imm rs1 0b100#3 rd 0b0000011#7
  | .lhu rd rs1 imm => encodeI imm rs1 0b101#3 rd 0b0000011#7
  | .sb rs2 rs1 imm => encodeS imm rs2 rs1 0b000#3 0b0100011#7
  | .sh rs2 rs1 imm => encodeS imm rs2 rs1 0b001#3 0b0100011#7
  | .sw rs2 rs1 imm => encodeS imm rs2 rs1 0b010#3 0b0100011#7
  | .addi rd rs1 imm => encodeI imm rs1 0b000#3 rd 0b0010011#7
  | .slli rd rs1 shamt => encodeR 0b0000000#7 shamt rs1 0b001#3 rd 0b0010011#7
  | .slti rd rs1 imm => encodeI imm rs1 0b010#3 rd 0b0010011#7
  | .sltiu rd rs1 imm => encodeI imm rs1 0b011#3 rd 0b0010011#7
  | .xori rd rs1 imm => encodeI imm rs1 0b100#3 rd 0b0010011#7
  | .srli rd rs1 shamt => encodeR 0b0000000#7 shamt rs1 0b101#3 rd 0b0010011#7
  | .srai rd rs1 shamt => encodeR 0b0100000#7 shamt rs1 0b101#3 rd 0b0010011#7
  | .ori rd rs1 imm => encodeI imm rs1 0b110#3 rd 0b0010011#7
  | .andi rd rs1 imm => encodeI imm rs1 0b111#3 rd 0b0010011#7
  | .add rd rs1 rs2 => encodeR 0b0000000#7 rs2 rs1 0b000#3 rd 0b0110011#7
  | .sub rd rs1 rs2 => encodeR 0b0100000#7 rs2 rs1 0b000#3 rd 0b0110011#7
  | .sll rd rs1 rs2 => encodeR 0b0000000#7 rs2 rs1 0b001#3 rd 0b0110011#7
  | .slt rd rs1 rs2 => encodeR 0b0000000#7 rs2 rs1 0b010#3 rd 0b0110011#7
  | .sltu rd rs1 rs2 => encodeR 0b0000000#7 rs2 rs1 0b011#3 rd 0b0110011#7
  | .xor rd rs1 rs2 => encodeR 0b0000000#7 rs2 rs1 0b100#3 rd 0b0110011#7
  | .srl rd rs1 rs2 => encodeR 0b0000000#7 rs2 rs1 0b101#3 rd 0b0110011#7
  | .sra rd rs1 rs2 => encodeR 0b0100000#7 rs2 rs1 0b101#3 rd 0b0110011#7
  | .or rd rs1 rs2 => encodeR 0b0000000#7 rs2 rs1 0b110#3 rd 0b0110011#7
  | .and rd rs1 rs2 => encodeR 0b0000000#7 rs2 rs1 0b111#3 rd 0b0110011#7
  | .mret => encodeR 0b0011000#7 0b00010#5 0b00000#5 0b000#3 0b00000#5 0b1110011#7

/-! The instruction list as the spec prints it: mask and match of each row (R72). -/

/-- A row of R72: a word `w` is the instruction when `w &&& mask = pattern`. -/
structure OpcodeRow where
  mnemonic : String
  mask : Word
  pattern : Word
  deriving DecidableEq, Repr

/-- The row of R72 that an instruction stands for. -/
def Instr.row : Instr → OpcodeRow
  | .lui _ _ => ⟨"LUI", 0x0000007F#32, 0x00000037#32⟩
  | .auipc _ _ => ⟨"AUIPC", 0x0000007F#32, 0x00000017#32⟩
  | .jal _ _ => ⟨"JAL", 0x0000007F#32, 0x0000006F#32⟩
  | .jalr _ _ _ => ⟨"JALR", 0x0000707F#32, 0x00000067#32⟩
  | .beq _ _ _ => ⟨"BEQ", 0x0000707F#32, 0x00000063#32⟩
  | .bne _ _ _ => ⟨"BNE", 0x0000707F#32, 0x00001063#32⟩
  | .blt _ _ _ => ⟨"BLT", 0x0000707F#32, 0x00004063#32⟩
  | .bge _ _ _ => ⟨"BGE", 0x0000707F#32, 0x00005063#32⟩
  | .bltu _ _ _ => ⟨"BLTU", 0x0000707F#32, 0x00006063#32⟩
  | .bgeu _ _ _ => ⟨"BGEU", 0x0000707F#32, 0x00007063#32⟩
  | .lb _ _ _ => ⟨"LB", 0x0000707F#32, 0x00000003#32⟩
  | .lh _ _ _ => ⟨"LH", 0x0000707F#32, 0x00001003#32⟩
  | .lw _ _ _ => ⟨"LW", 0x0000707F#32, 0x00002003#32⟩
  | .lbu _ _ _ => ⟨"LBU", 0x0000707F#32, 0x00004003#32⟩
  | .lhu _ _ _ => ⟨"LHU", 0x0000707F#32, 0x00005003#32⟩
  | .sb _ _ _ => ⟨"SB", 0x0000707F#32, 0x00000023#32⟩
  | .sh _ _ _ => ⟨"SH", 0x0000707F#32, 0x00001023#32⟩
  | .sw _ _ _ => ⟨"SW", 0x0000707F#32, 0x00002023#32⟩
  | .addi _ _ _ => ⟨"ADDI", 0x0000707F#32, 0x00000013#32⟩
  | .slli _ _ _ => ⟨"SLLI", 0xFE00707F#32, 0x00001013#32⟩
  | .slti _ _ _ => ⟨"SLTI", 0x0000707F#32, 0x00002013#32⟩
  | .sltiu _ _ _ => ⟨"SLTIU", 0x0000707F#32, 0x00003013#32⟩
  | .xori _ _ _ => ⟨"XORI", 0x0000707F#32, 0x00004013#32⟩
  | .srli _ _ _ => ⟨"SRLI", 0xFE00707F#32, 0x00005013#32⟩
  | .srai _ _ _ => ⟨"SRAI", 0xFE00707F#32, 0x40005013#32⟩
  | .ori _ _ _ => ⟨"ORI", 0x0000707F#32, 0x00006013#32⟩
  | .andi _ _ _ => ⟨"ANDI", 0x0000707F#32, 0x00007013#32⟩
  | .add _ _ _ => ⟨"ADD", 0xFE00707F#32, 0x00000033#32⟩
  | .sub _ _ _ => ⟨"SUB", 0xFE00707F#32, 0x40000033#32⟩
  | .sll _ _ _ => ⟨"SLL", 0xFE00707F#32, 0x00001033#32⟩
  | .slt _ _ _ => ⟨"SLT", 0xFE00707F#32, 0x00002033#32⟩
  | .sltu _ _ _ => ⟨"SLTU", 0xFE00707F#32, 0x00003033#32⟩
  | .xor _ _ _ => ⟨"XOR", 0xFE00707F#32, 0x00004033#32⟩
  | .srl _ _ _ => ⟨"SRL", 0xFE00707F#32, 0x00005033#32⟩
  | .sra _ _ _ => ⟨"SRA", 0xFE00707F#32, 0x40005033#32⟩
  | .or _ _ _ => ⟨"OR", 0xFE00707F#32, 0x00006033#32⟩
  | .and _ _ _ => ⟨"AND", 0xFE00707F#32, 0x00007033#32⟩
  | .mret => ⟨"MRET", 0xFFFFFFFF#32, 0x30200073#32⟩

/-! The host's reading of the opcode table's bits. -/

/-- The four bytes, lowest address first, of an instruction whose low `nbits` bits are those of `w` and
whose other bits are 0 (R42, R60). -/
def tableBytes (nbits w : Nat) : List Byte :=
  let v : Word := BitVec.ofNat 32 (w % 2 ^ nbits)
  [v.extractLsb' 0 8, v.extractLsb' 8 8, v.extractLsb' 16 8, v.extractLsb' 24 8]

/-- What the decoder reads from an instruction whose bits are `w`, numbered as the opcode table numbers
them. -/
def decodeTableWord (nbits w : Nat) : Option Instr :=
  match decodeBytes (tableBytes nbits w) with
  | .ok (i, _) => some i
  | .error _ => none

end Sys2Proof
end

