-- ==== Sys2Proof/Machine/Alu.lean ====
section
/-! DEFINITION. The operations of the source's notation on 32-bit vectors (`00_scope.md` R10, `43_op_imm.md` R130,
`44_op.md` R151). Sums are taken modulo 2^32 (R151 b, decision D9, log 19). -/

namespace Sys2Proof.Machine

/-- `a + b` modulo 2^32 (R141). -/
def addWord (a b : Word) : Word := a + b

/-- `a - b` modulo 2^32 (R142). -/
def subWord (a b : Word) : Word := a - b

/-- `a sll n`: left, zeros enter at bit 0 (R132, R143). -/
def shiftLeft (a : Word) (n : Nat) : Word := a <<< n

/-- `a srl n`: right, zeros enter at bit 31 (R136, R147). -/
def shiftRight (a : Word) (n : Nat) : Word := a >>> n

/-- `a sra n`: right, copies of `a[31]` enter at bit 31 (R137, R148). -/
def shiftRightArith (a : Word) (n : Nat) : Word := a.sshiftRight n

/-- `a and b` (R139, R150). -/
def andWord (a b : Word) : Word := a &&& b

/-- `a or b` (R138, R149). -/
def orWord (a b : Word) : Word := a ||| b

/-- `a xor b` (R135, R146). -/
def xorWord (a b : Word) : Word := a ^^^ b

end Sys2Proof.Machine
end

