-- ==== Sys2Proof/Machine/Flags.lean ====
section
/-! DEFINITION. Virgule has no flags (`10_state.md` R30). What stands in their place: the comparisons of two
32-bit values that branches test and that the set instructions write to a register. -/

namespace Sys2Proof.Machine

/-- `a = b` as 32-bit vectors (R113). -/
def cmpEq (a b : Word) : Bool := a == b

/-- `signed(a) < signed(b)` (R115, R133, R144). -/
def cmpLt (a b : Word) : Bool := decide (a.toInt < b.toInt)

/-- `unsigned(a) < unsigned(b)` (R117, R134, R145). -/
def cmpLtu (a b : Word) : Bool := decide (a.toNat < b.toNat)

/-- A comparison's result in a register: exactly `0x00000000` or `0x00000001` (R151 f). -/
def boolWord (c : Bool) : Word := if c then 1#32 else 0#32

end Sys2Proof.Machine
end

