-- ==== Sys2Proof/Config.lean ====
section
/-! DEFINITION. What the platform around the core fixes (`00_scope.md` R8) and the free values. -/

namespace Sys2Proof

/-- What stands behind a region of the address space (`20_memory.md` R51): plain memory, whose reads return the
last value written and have no side effect, or a device, whose reads are answered by an oracle. -/
inductive RegionKind where
  | memory
  | device
  deriving DecidableEq, Repr

/-- One region of `MemMap` (`20_memory.md` R52, R53; decision D18): the byte addresses `base` to
`base + size - 1`, what stands there, and which accesses it allows. -/
structure Region where
  base : Nat
  size : Nat
  kind : RegionKind
  readable : Bool
  writable : Bool
  executable : Bool
  deriving DecidableEq, Repr

/-- `SMC_POLICY` (`20_memory.md` R58; decision D13): whether a fetch may read a byte that a store of this run
has written. -/
inductive SmcPolicy where
  /-- such a fetch raises the model fault `FetchOfModifiedCode` (the default the spec recommends) -/
  | refuse
  /-- such a fetch is an ordinary read and sees the store -/
  | coherent
  deriving DecidableEq, Repr

/-- The platform's parameters (`00_scope.md` R8), constant during a run. Where two regions of `map` overlap, the
first one in the list holds. -/
structure Platform where
  resetPc : Word
  map : List Region
  smc : SmcPolicy
  deriving DecidableEq, Repr

namespace Config

/-- DESIGN CHOICE (log 7): the whole 2^32-byte space as plain readable, writable, executable memory. -/
def wholeSpace : Region where
  base := 0
  size := 4294967296
  kind := .memory
  readable := true
  writable := true
  executable := true

/-- The platform of `State.reset`: `RESET_PC = 0` (decision D1, log 3), the whole space as memory (log 7),
`SMC_POLICY = refuse` (decision D13, log 9). -/
def platform : Platform where
  resetPc := 0#32
  map := [wholeSpace]
  smc := .refuse

/-- FREE VALUE (log 6): the byte that the platform's memory holds at an address before anything is loaded or
stored there (`93_implementation_defined.md` U18: any value). -/
opaque initialByte : Nat → Byte

/-- FREE VALUE (log 8): what the device at byte address `addr` answers to the read numbered `draw`
(`20_memory.md` R51, U13: any value, drawn by the platform oracle). -/
opaque deviceByte (draw addr : Nat) : Byte

end Config

end Sys2Proof
end

