-- ==== Sys2Proof/Machine/Memory.lean ====
section
/-! DEFINITION. Memory as plain data in one canonical form (`10_state.md` R33, `20_memory.md` R40), and sets of
byte addresses held the same way. -/

namespace Sys2Proof.Machine

/-- The bytes that were loaded or stored, as (address, byte) pairs with addresses strictly rising. An
unlisted address holds no value of the list's: nothing was loaded or stored there (log 6). -/
abbrev Memory := List Host.Cell

/-- Every address is in `lo ≤ a < 2^32` and the addresses rise strictly. -/
def Memory.wfFrom (lo : Nat) : Memory → Bool
  | [] => true
  | (a, _) :: m => decide (lo ≤ a) && decide (a < 4294967296) && Memory.wfFrom (a + 1) m

/-- The canonical form. An unlisted address reads as no value (`none`), which no entry equals. -/
def Memory.wf (m : Memory) : Bool := m.wfFrom 0

/-- The byte listed at an address; `none` where nothing was loaded or stored. -/
def Memory.get (m : Memory) (a : Nat) : Option Byte :=
  match m with
  | [] => none
  | (k, b) :: rest => if k = a then some b else Memory.get rest a

/-- `mem[a] <- b`. -/
def Memory.set (m : Memory) (a : Nat) (b : Byte) : Memory :=
  match m with
  | [] => [(a, b)]
  | (k, c) :: rest =>
    if a < k then (a, b) :: (k, c) :: rest
    else if a = k then (a, b) :: rest
    else (k, c) :: Memory.set rest a b

/-- A set of byte addresses: a strictly rising list. -/
abbrev AddrSet := List Nat

/-- Every address is in `lo ≤ a < 2^32` and the addresses rise strictly. -/
def AddrSet.wfFrom (lo : Nat) : AddrSet → Bool
  | [] => true
  | a :: s => decide (lo ≤ a) && decide (a < 4294967296) && AddrSet.wfFrom (a + 1) s

/-- The canonical form of a set of addresses. -/
def AddrSet.wf (s : AddrSet) : Bool := AddrSet.wfFrom 0 s

/-- Is the address in the set? -/
def AddrSet.has (s : AddrSet) (a : Nat) : Bool :=
  match s with
  | [] => false
  | k :: rest => decide (k = a) || AddrSet.has rest a

/-- The set with one more address. -/
def AddrSet.add (s : AddrSet) (a : Nat) : AddrSet :=
  match s with
  | [] => [a]
  | k :: rest =>
    if a < k then a :: k :: rest
    else if a = k then k :: rest
    else k :: AddrSet.add rest a

/-- The set without an address. -/
def AddrSet.remove (s : AddrSet) (a : Nat) : AddrSet :=
  match s with
  | [] => []
  | k :: rest => if k = a then AddrSet.remove rest a else k :: AddrSet.remove rest a

end Sys2Proof.Machine
end

