-- ==== Sys2Proof/Machine/State.lean ====
section
/-! DEFINITION. The state of the machine as plain data (`10_state.md`), the reasons a step can stop
(`60_exceptions.md` R161), and the state after reset. -/

namespace Sys2Proof.Machine

/-- The three kinds of access a memory map allows or forbids (`20_memory.md` R53). -/
inductive AccessKind where
  | fetch
  | read
  | write
  deriving DecidableEq, Repr

/-- An access that was handed to a device (`20_memory.md` R51, decision D18). -/
inductive DeviceEvent where
  /-- an instruction fetch at this address -/
  | fetch (addr : Word)
  /-- a read of `n` bytes at this address -/
  | read (addr : Word) (n : Nat)
  /-- a write of the `8n`-bit value `v` at this address -/
  | write (addr : Word) (n : Nat) (v : Word)
  deriving DecidableEq, Repr

/-- The model faults of `60_exceptions.md` R161: the situations the spec gives no behaviour. Each changes no
architectural state, is no hardware trap, and is SAFE: the model stops where the chip may go on. -/
inductive Fault where
  /-- Raised by `step` for a fetched word that is no listed instruction (`30_encoding.md` R75). Safe. -/
  | illegalInstruction (inst : Word)
  /-- Raised by LH, LHU, SH, LW, SW at an address that is no multiple of the size (`20_memory.md` R46). Safe. -/
  | misalignedAccess (addr : Word) (n : Nat)
  /-- Raised by a jump, a taken branch or MRET whose target is no multiple of 4
  (`41_jumps_branches.md` R110, `60_exceptions.md` R177), and by a fetch at such a `pc` (`20_memory.md` R48). Safe. -/
  | misalignedTarget (t : Word)
  /-- Raised by a fetch, load or store that touches a byte the memory map does not allow for that kind of
  access (`20_memory.md` R53); `addr` is the access's address. Safe. -/
  | accessOutsideMap (addr : Word) (kind : AccessKind)
  /-- Raised by a fetch under `SMC_POLICY = refuse` of a byte that a store of the run has written
  (`20_memory.md` R58); `addr` is the fetch's address. Safe. -/
  | fetchOfModifiedCode (addr : Word)
  deriving DecidableEq, Repr

/-- Instructions without a meaning. -/
inductive Refusal where
  /-- Raised by an arm of `exec` whose instruction is not modelled yet; no arm is. Safe. -/
  | notModelled (mnemonic : String)
  deriving DecidableEq, Repr

/-- The machine. -/
structure State where
  /-- the general registers `x0` to `x31` (R20); entry 0 is 0 in every state a run reaches, and is read
  through `State.readReg`, which answers 0 for `x0` (R21) -/
  regs : Vector Word 32
  /-- the address of the instruction to execute (R25) -/
  pc : Word
  /-- the interrupt return address (R28) -/
  mepc : Word
  /-- the non-interruptible mode (R29) -/
  ni : Bool
  /-- memory (R33) -/
  mem : Memory
  /-- the byte addresses a store of this run has written (`20_memory.md` R58) -/
  stored : AddrSet
  /-- the accesses handed to devices, newest first (`20_memory.md` R51) -/
  events : List DeviceEvent
  /-- the number of the next device draw; the model's own field (log 8) -/
  draws : Nat
  /-- the input `irq(n)`: the requests seen during the coming instructions, the current one's first; after
  the last one there is no request (R34, `60_exceptions.md` R162; log 10) -/
  irq : List Bool
  /-- the platform's parameters, which no step changes (`00_scope.md` R8) -/
  plat : Platform
  deriving DecidableEq, Repr

/-- The machine right after reset on a platform (R35, `70_reset_and_hazards.md` R190): `pc = RESET_PC`, `ni = 0`, the memory
that the platform provides, the requests that will be seen. DESIGN CHOICE, unsafe: `x1` to `x31` (log 1)
and `mepc` (log 2) hold 0, where the spec leaves them unspecified. -/
def State.resetOn (p : Platform) (image : Memory) (requests : List Bool) : State where
  regs := Vector.replicate 32 0#32
  pc := p.resetPc
  mepc := 0#32
  ni := false
  mem := image
  stored := []
  events := []
  draws := 0
  irq := requests
  plat := p

/-- The machine right after reset on the default platform, with nothing loaded and no request (log 3, 7, 9,
10, 20). -/
def State.reset : State := State.resetOn Config.platform [] []

end Sys2Proof.Machine
end

