-- ==== Sys2Proof/Machine/Ops.lean ====
section
/-! DEFINITION. The named operations over registers, `pc`, memory and devices, the fetch, and the
interrupt: entry, return and the end of an instruction. -/

namespace Sys2Proof.Machine

/-- What a step, or one instruction, answers. -/
abbrev Result := Host.Outcome State Fault Refusal

/-! Registers (`10_state.md` R20, R21). -/

/-- `x[r]`; `x[0]` is 0 (R21). -/
def State.readReg (s : State) (r : RegId) : Word :=
  if r = 0#5 then 0#32 else s.regs[r.toNat]'r.isLt

/-- `x[r] <- v`; discarded when `r = 0` (R21, decision D20, log 29). -/
def State.writeReg (s : State) (r : RegId) (v : Word) : State :=
  if r = 0#5 then s else { s with regs := s.regs.set r.toNat v r.isLt }

/-! Program counter (R25, R26). -/

/-- `pc <- t`. -/
def State.setPc (s : State) (t : Word) : State := { s with pc := t }

/-- The address of the instruction after this one, modulo 2^32 (R26, log 19). -/
def State.pcPlus4 (s : State) : Word := s.pc + 4#32

/-- The end of an instruction whose `next_pc` is `pc + 4` (R26). -/
def State.advance (s : State) : State := s.setPc s.pcPlus4

/-- Is the address a multiple of `n`? -/
def aligned (addr : Word) (n : Nat) : Bool := addr.toNat % n == 0

/-- The end of an instruction that transfers control: `s'` is the state with its other effects, kept only if
the target is a multiple of 4 (`41_jumps_branches.md` R110, log 15). -/
def State.transfer (s' : State) (t : Word) : Result :=
  if aligned t 4 then .next (s'.setPc t) else .fault (.misalignedTarget t)

/-! The memory map (`20_memory.md` R52, R53; log 7). -/

/-- Does the region hold the byte address? -/
def regionHolds (r : Region) (a : Nat) : Bool := decide (r.base ≤ a) && decide (a < r.base + r.size)

/-- The first region of the map that holds the byte address. -/
def findRegion (map : List Region) (a : Nat) : Option Region :=
  match map with
  | [] => none
  | r :: rest => if regionHolds r a then some r else findRegion rest a

/-- Does the region allow this kind of access? -/
def regionAllows (r : Region) : AccessKind → Bool
  | .fetch => r.executable
  | .read => r.readable
  | .write => r.writable

/-- Does the map allow this kind of access to the byte? -/
def State.allowsByte (s : State) (k : AccessKind) (a : Nat) : Bool :=
  match findRegion s.plat.map a with
  | some r => regionAllows r k
  | none => false

/-- Does the map allow this kind of access to the `n` bytes from `a`? -/
def State.allows (s : State) (k : AccessKind) (a : Nat) : Nat → Bool
  | 0 => true
  | n + 1 => s.allowsByte k a && s.allows k (a + 1) n

/-- Does a device stand at the byte address? -/
def State.isDevice (s : State) (a : Nat) : Bool :=
  match findRegion s.plat.map a with
  | some r => decide (r.kind = .device)
  | none => false

/-- Does a device stand at one of the `n` bytes from `a`? -/
def State.touchesDevice (s : State) (a : Nat) : Nat → Bool
  | 0 => false
  | n + 1 => s.isDevice a || s.touchesDevice (a + 1) n

/-! Bytes. -/

/-- The byte that memory holds at an address: what was last loaded or stored there, else the free value
`Config.initialByte` (`20_memory.md` R55, `93_implementation_defined.md` U18; log 6). -/
def State.byteAt (s : State) (a : Nat) : Byte :=
  match s.mem.get a with
  | some b => b
  | none => Config.initialByte a

/-- The byte a read access gets: memory's, or the device's free answer (`20_memory.md` R51; log 8). -/
def State.readByte (s : State) (a : Nat) : Byte :=
  if s.isDevice a then Config.deviceByte s.draws a else s.byteAt a

/-- Write one byte: memory takes it, a device does not store it (it gets the access as an event); either
way a store of the run has written the address (`20_memory.md` R45, R51, R58). -/
def State.writeByte (s : State) (a : Nat) (b : Byte) : State :=
  { s with
    mem := if s.isDevice a then s.mem else s.mem.set a b
    stored := AddrSet.add s.stored a }

/-- `MemRead(a, 1)` (`20_memory.md` R44). -/
def State.read8 (s : State) (a : Nat) : BitVec 8 := s.readByte a

/-- `MemRead(a, 2)`: `{mem[a+1], mem[a]}` (`20_memory.md` R42, R44). -/
def State.read16 (s : State) (a : Nat) : BitVec 16 := s.readByte (a + 1) ++ s.readByte a

/-- `MemRead(a, 4)`: `{mem[a+3], mem[a+2], mem[a+1], mem[a]}` (`20_memory.md` R42, R44). -/
def State.read32 (s : State) (a : Nat) : BitVec 32 :=
  s.readByte (a + 3) ++ s.readByte (a + 2) ++ s.readByte (a + 1) ++ s.readByte a

/-- `MemWrite(a, n, v)`: `mem[a+i] <- v[8i+7:8i]` for `i < n` (`20_memory.md` R42, R45). -/
def State.writeBytes (s : State) (a : Nat) (v : Word) : Nat → State
  | 0 => s
  | n + 1 => (s.writeByte a (v.setWidth 8)).writeBytes (a + 1) (v >>> (8 : Nat)) n

/-! Accesses. -/

/-- Hand an access of `n` bytes at `a` to the device it touches, if it touches one; the next device draw is
a fresh one (`20_memory.md` R51, log 8). -/
def State.noteAccess (s : State) (a n : Nat) (e : DeviceEvent) : State :=
  if s.touchesDevice a n then { s with events := e :: s.events, draws := s.draws + 1 } else s

/-- The checks on a data access, in the order of `42_loads_stores.md` R120: alignment (`20_memory.md` R46), then the map
(`20_memory.md` R53). -/
def State.checkAccess (s : State) (k : AccessKind) (addr : Word) (n : Nat) : Option Fault :=
  if aligned addr n then
    if s.allows k addr.toNat n then none else some (.accessOutsideMap addr k)
  else some (.misalignedAccess addr n)

/-- A load of `n` bytes at `addr`: the checks, then the access, whose value, extended to 32 bits by
`value`, goes to `rd`. The access is made whatever `rd` is (`42_loads_stores.md` R129, log 28). -/
def State.load (s : State) (rd : RegId) (addr : Word) (n : Nat) (value : State → Nat → Word) : Result :=
  match s.checkAccess .read addr n with
  | some f => .fault f
  | none =>
    .next (((s.noteAccess addr.toNat n (.read addr n)).writeReg rd (value s addr.toNat)).advance)

/-- A store of the `n` low bytes of `v` at `addr`: the checks, then the access (`42_loads_stores.md` R120). -/
def State.store (s : State) (addr : Word) (n : Nat) (v : Word) : Result :=
  match s.checkAccess .write addr n with
  | some f => .fault f
  | none =>
    .next (((s.noteAccess addr.toNat n (.write addr n v)).writeBytes addr.toNat v n).advance)

/-! Fetch (`20_memory.md` R47, R48, R53, R58). -/

/-- Has a store of this run written one of the `n` bytes from `a`? -/
def State.anyStored (s : State) (a : Nat) : Nat → Bool
  | 0 => false
  | n + 1 => AddrSet.has s.stored a || s.anyStored (a + 1) n

/-- Does `SMC_POLICY` forbid this fetch (`20_memory.md` R58)? -/
def State.smcForbids (s : State) : Bool :=
  match s.plat.smc with
  | .refuse => s.anyStored s.pc.toNat 4
  | .coherent => false

/-- `inst = MemRead(pc, 4)`, with the fetch faults in the order of `60_exceptions.md` R161. -/
def State.fetch (s : State) : Except Fault (Word × State) :=
  if aligned s.pc 4 then
    if s.allows .fetch s.pc.toNat 4 then
      if s.smcForbids then .error (.fetchOfModifiedCode s.pc)
      else .ok (s.read32 s.pc.toNat, s.noteAccess s.pc.toNat 4 (.fetch s.pc))
    else .error (.accessOutsideMap s.pc .fetch)
  else .error (.misalignedTarget s.pc)

/-! The interrupt (`60_exceptions.md`). -/

/-- The address of the interrupt vector (`00_scope.md` R7, `20_memory.md` R52). -/
def irqVector : Word := 0x00000004#32

/-- TAKING THE INTERRUPT, after an instruction whose `next_pc` is in `pc`: `ni <- 1`, `mepc <- next_pc`,
`pc <- 4`, and nothing else (R172, R173). -/
def State.takeInterrupt (s : State) : State :=
  { s with ni := true, mepc := s.pc, pc := irqVector }

/-- RETURN FROM INTERRUPT: `next_pc = mepc`, `ni <- 0`, and nothing else (R175). -/
def State.returnFromInterrupt (s : State) : State := { s with pc := s.mepc, ni := false }

/-- `irq(n)`, the request seen during the current instruction (R162). -/
def State.irqNow (s : State) : Bool :=
  match s.irq with
  | [] => false
  | r :: _ => r

/-- The requests of the instructions after the current one. -/
def State.irqLater (s : State) : List Bool :=
  match s.irq with
  | [] => []
  | _ :: rest => rest

/-- The end of the step of R170: `s0` is the state in which the instruction executed (its `ni` is `ni0`), `s1`
the state it left, `pc` holding `next_pc`. The entry is taken when `irq(n) = 1` and `ni0 = 0` (decision D15, log
11). -/
def State.retire (s0 s1 : State) : State :=
  let s2 : State := { s1 with irq := s0.irqLater }
  if s0.irqNow && !s0.ni then s2.takeInterrupt else s2

/-! Loading from outside (`20_memory.md` R58: a loader's write is no store of the run; log 20). -/

/-- Place bytes in memory from outside. -/
def State.loadBytes (s : State) (a : Nat) : List Byte → State
  | [] => s
  | b :: rest =>
    State.loadBytes
      { s with mem := s.mem.set a b, stored := AddrSet.remove s.stored a } (a + 1) rest

end Sys2Proof.Machine
end

