-- ==== Sys2Proof/Machine/Operands.lean ====
section
/-! DEFINITION. Operand forms: effective address, branch target, shift amount, and the three shapes in
which an operand form ends an instruction. -/

namespace Sys2Proof.Machine

/-- The one addressing mode (`42_loads_stores.md` R120): `x[rs1] + imm`, modulo 2^32. -/
def State.effAddr (s : State) (rs1 : RegId) (imm : Word) : Word := addWord (s.readReg rs1) imm

/-- The `pc`-relative target of JAL and of the branches (R111, R113): `pc + imm`, modulo 2^32. -/
def State.pcRel (s : State) (imm : Word) : Word := addWord s.pc imm

/-- The shift amount of a register shift: `x[rs2][4:0]` (`44_op.md` R143, R147, R148; for SLL `90_conflicts.md` C1, log
17). -/
def State.shiftAmount (s : State) (rs2 : RegId) : Nat := ((s.readReg rs2).extractLsb' 0 5).toNat

/-- An instruction whose one effect is `x[rd] <- v`, with `next_pc = pc + 4` (`43_op_imm.md` R130, `44_op.md` R140). -/
def State.setResult (s : State) (rd : RegId) (v : Word) : Result := .next ((s.writeReg rd v).advance)

/-- A jump: `x[rd] <- pc + 4`, `next_pc = t` (R111, R112). All operands are read before the link is written
(`00_scope.md` R11, log 18). -/
def State.jumpAndLink (s : State) (rd : RegId) (t : Word) : Result :=
  (s.writeReg rd s.pcPlus4).transfer t

/-- A conditional branch (`41_jumps_branches.md` section 3): to `pc + imm` when `cond` holds, else `pc + 4`. -/
def State.branchIf (s : State) (cond : Bool) (imm : Word) : Result :=
  if cond then s.transfer (s.pcRel imm) else .next s.advance

end Sys2Proof.Machine
end

