-- ==== Sys2Proof/Machine/Jumps.lean ====
section
/-! DEFINITION. Jumps and conditional branches (`41_jumps_branches.md`). -/

namespace Sys2Proof.Machine

/-- JAL (R111). -/
def execJal (rd : RegId) (imm : Word) (s : State) : Result := s.jumpAndLink rd (s.pcRel imm)

/-- JALR (R112): the target uses the old `x[rs1]`, and no bit of it is cleared. -/
def execJalr (rd rs1 : RegId) (imm : Word) (s : State) : Result :=
  s.jumpAndLink rd (s.effAddr rs1 imm)

/-- BEQ (R113). -/
def execBeq (rs1 rs2 : RegId) (imm : Word) (s : State) : Result :=
  s.branchIf (cmpEq (s.readReg rs1) (s.readReg rs2)) imm

/-- BNE (R114). -/
def execBne (rs1 rs2 : RegId) (imm : Word) (s : State) : Result :=
  s.branchIf (!cmpEq (s.readReg rs1) (s.readReg rs2)) imm

/-- BLT (R115). -/
def execBlt (rs1 rs2 : RegId) (imm : Word) (s : State) : Result :=
  s.branchIf (cmpLt (s.readReg rs1) (s.readReg rs2)) imm

/-- BGE (R116): the exact complement of BLT. -/
def execBge (rs1 rs2 : RegId) (imm : Word) (s : State) : Result :=
  s.branchIf (!cmpLt (s.readReg rs1) (s.readReg rs2)) imm

/-- BLTU (R117). -/
def execBltu (rs1 rs2 : RegId) (imm : Word) (s : State) : Result :=
  s.branchIf (cmpLtu (s.readReg rs1) (s.readReg rs2)) imm

/-- BGEU (R118): the exact complement of BLTU. -/
def execBgeu (rs1 rs2 : RegId) (imm : Word) (s : State) : Result :=
  s.branchIf (!cmpLtu (s.readReg rs1) (s.readReg rs2)) imm

end Sys2Proof.Machine
end

