-- ==== Sys2Proof/Machine/LoadStore.lean ====
section
/-! DEFINITION. Loads and stores (`42_loads_stores.md`). -/

namespace Sys2Proof.Machine

/-- LB (R121): the byte, sign-extended. -/
def execLb (rd rs1 : RegId) (imm : Word) (s : State) : Result :=
  s.load rd (s.effAddr rs1 imm) 1 fun s a => (s.read8 a).signExtend 32

/-- LH (R122): the half word, sign-extended. -/
def execLh (rd rs1 : RegId) (imm : Word) (s : State) : Result :=
  s.load rd (s.effAddr rs1 imm) 2 fun s a => (s.read16 a).signExtend 32

/-- LW (R123). -/
def execLw (rd rs1 : RegId) (imm : Word) (s : State) : Result :=
  s.load rd (s.effAddr rs1 imm) 4 fun s a => s.read32 a

/-- LBU (R124): the byte, zero-extended. -/
def execLbu (rd rs1 : RegId) (imm : Word) (s : State) : Result :=
  s.load rd (s.effAddr rs1 imm) 1 fun s a => (s.read8 a).setWidth 32

/-- LHU (R125): the half word, zero-extended. -/
def execLhu (rd rs1 : RegId) (imm : Word) (s : State) : Result :=
  s.load rd (s.effAddr rs1 imm) 2 fun s a => (s.read16 a).setWidth 32

/-- SB (R126): `x[rs2][7:0]`. -/
def execSb (rs2 rs1 : RegId) (imm : Word) (s : State) : Result :=
  s.store (s.effAddr rs1 imm) 1 (((s.readReg rs2).extractLsb' 0 8).setWidth 32)

/-- SH (R127): `x[rs2][15:0]`. -/
def execSh (rs2 rs1 : RegId) (imm : Word) (s : State) : Result :=
  s.store (s.effAddr rs1 imm) 2 (((s.readReg rs2).extractLsb' 0 16).setWidth 32)

/-- SW (R128). -/
def execSw (rs2 rs1 : RegId) (imm : Word) (s : State) : Result :=
  s.store (s.effAddr rs1 imm) 4 (s.readReg rs2)

end Sys2Proof.Machine
end

