-- ==== Sys2Proof/Machine/Op.lean ====
section
/-! DEFINITION. Register-register operations (`44_op.md`). -/

namespace Sys2Proof.Machine

/-- ADD (R141). -/
def execAdd (rd rs1 rs2 : RegId) (s : State) : Result :=
  s.setResult rd (addWord (s.readReg rs1) (s.readReg rs2))

/-- SUB (R142). -/
def execSub (rd rs1 rs2 : RegId) (s : State) : Result :=
  s.setResult rd (subWord (s.readReg rs1) (s.readReg rs2))

/-- SLL (R143; the shift amount by `90_conflicts.md` C1). -/
def execSll (rd rs1 rs2 : RegId) (s : State) : Result :=
  s.setResult rd (shiftLeft (s.readReg rs1) (s.shiftAmount rs2))

/-- SLT (R144). -/
def execSlt (rd rs1 rs2 : RegId) (s : State) : Result :=
  s.setResult rd (boolWord (cmpLt (s.readReg rs1) (s.readReg rs2)))

/-- SLTU (R145). -/
def execSltu (rd rs1 rs2 : RegId) (s : State) : Result :=
  s.setResult rd (boolWord (cmpLtu (s.readReg rs1) (s.readReg rs2)))

/-- XOR (R146). -/
def execXor (rd rs1 rs2 : RegId) (s : State) : Result :=
  s.setResult rd (xorWord (s.readReg rs1) (s.readReg rs2))

/-- SRL (R147). -/
def execSrl (rd rs1 rs2 : RegId) (s : State) : Result :=
  s.setResult rd (shiftRight (s.readReg rs1) (s.shiftAmount rs2))

/-- SRA (R148). -/
def execSra (rd rs1 rs2 : RegId) (s : State) : Result :=
  s.setResult rd (shiftRightArith (s.readReg rs1) (s.shiftAmount rs2))

/-- OR (R149). -/
def execOr (rd rs1 rs2 : RegId) (s : State) : Result :=
  s.setResult rd (orWord (s.readReg rs1) (s.readReg rs2))

/-- AND (R150). -/
def execAnd (rd rs1 rs2 : RegId) (s : State) : Result :=
  s.setResult rd (andWord (s.readReg rs1) (s.readReg rs2))

end Sys2Proof.Machine
end

