-- ==== Sys2Proof/Machine/OpImm.lean ====
section
/-! DEFINITION. Register-immediate operations (`43_op_imm.md`). -/

namespace Sys2Proof.Machine

/-- ADDI (R131). -/
def execAddi (rd rs1 : RegId) (imm : Word) (s : State) : Result :=
  s.setResult rd (addWord (s.readReg rs1) imm)

/-- SLLI (R132). -/
def execSlli (rd rs1 : RegId) (shamt : Shamt) (s : State) : Result :=
  s.setResult rd (shiftLeft (s.readReg rs1) shamt.toNat)

/-- SLTI (R133). -/
def execSlti (rd rs1 : RegId) (imm : Word) (s : State) : Result :=
  s.setResult rd (boolWord (cmpLt (s.readReg rs1) imm))

/-- SLTIU (R134): the sign-extended immediate, read as an unsigned number. -/
def execSltiu (rd rs1 : RegId) (imm : Word) (s : State) : Result :=
  s.setResult rd (boolWord (cmpLtu (s.readReg rs1) imm))

/-- XORI (R135). -/
def execXori (rd rs1 : RegId) (imm : Word) (s : State) : Result :=
  s.setResult rd (xorWord (s.readReg rs1) imm)

/-- SRLI (R136). -/
def execSrli (rd rs1 : RegId) (shamt : Shamt) (s : State) : Result :=
  s.setResult rd (shiftRight (s.readReg rs1) shamt.toNat)

/-- SRAI (R137). -/
def execSrai (rd rs1 : RegId) (shamt : Shamt) (s : State) : Result :=
  s.setResult rd (shiftRightArith (s.readReg rs1) shamt.toNat)

/-- ORI (R138). -/
def execOri (rd rs1 : RegId) (imm : Word) (s : State) : Result :=
  s.setResult rd (orWord (s.readReg rs1) imm)

/-- ANDI (R139). -/
def execAndi (rd rs1 : RegId) (imm : Word) (s : State) : Result :=
  s.setResult rd (andWord (s.readReg rs1) imm)

end Sys2Proof.Machine
end

