-- ==== Sys2Proof/Machine/System.lean ====
section
/-! DEFINITION. The one system instruction (`45_system.md`). -/

namespace Sys2Proof.Machine

/-- MRET (R155): `next_pc = mepc`, `ni <- 0`. A `mepc` that is no multiple of 4, which only a drawn reset
value can be, raises `MisalignedTarget` (`60_exceptions.md` R177, log 15). -/
def execMret (s : State) : Result :=
  if aligned s.mepc 4 then .next s.returnFromInterrupt else .fault (.misalignedTarget s.mepc)

end Sys2Proof.Machine
end

