-- ==== Sys2Proof/Machine/UpperImm.lean ====
section
/-! DEFINITION. LUI and AUIPC (`40_upper_immediate.md`). -/

namespace Sys2Proof.Machine

/-- LUI (R100). -/
def execLui (rd : RegId) (imm : Word) (s : State) : Result := s.setResult rd imm

/-- AUIPC (R101). -/
def execAuipc (rd : RegId) (imm : Word) (s : State) : Result := s.setResult rd (s.pcRel imm)

end Sys2Proof.Machine
end

