-- ==== Sys2Proof/Machine/Step.lean ====
section
/-! DEFINITION. The step of the machine, with the interrupt (`60_exceptions.md` R170). -/

namespace Sys2Proof.Machine

/-- One step: fetch, decode, execute, then the interrupt if one is taken. A model fault changes no state and
takes no interrupt (R161). -/
def step (s : State) : Host.Outcome State Fault Refusal :=
  match s.fetch with
  | .error f => .fault f
  | .ok (w, s1) =>
    match decode w with
    | .error _ => .fault (.illegalInstruction w)
    | .ok i =>
      match exec i s1 with
      | .next s2 => .next (s1.retire s2)
      | .fault f => .fault f
      | .refused r => .refused r

/-- `s` with an instruction loaded from outside where the next fetch reads: at `pc`, which is a multiple
of 4 in executable memory right after reset (log 20). -/
def State.withFetchWord (s : State) (nbits w : Nat) : State :=
  s.loadBytes s.pc.toNat (tableBytes nbits w)

end Sys2Proof.Machine
end

