-- ==== Sys2Proof/Safety.lean ====
section
/-! DEFINITION. The terms claims are written in: the invariant of reachable states, what a claim calls
unchanged, a safe run, and the end of a run. -/

namespace Sys2Proof.Machine

/-- What holds of every state a run reaches: `x0` holds 0 (R21), `pc` and `mepc` are multiples of 4 (`10_state.md`
R27), memory and the set of stored addresses are in canonical form. -/
structure State.Inv (s : State) : Prop where
  x0_zero : s.regs[0] = 0#32
  pc_aligned : s.pc.toNat % 4 = 0
  mepc_aligned : s.mepc.toNat % 4 = 0
  mem_wf : s.mem.wf = true
  stored_wf : AddrSet.wf s.stored = true

/-- Every general register but `rd` reads as before. -/
def SameRegsBut (rd : RegId) (s t : State) : Prop := ∀ r, r ≠ rd → t.readReg r = s.readReg r

/-- Every general register reads as before. -/
def SameRegs (s t : State) : Prop := ∀ r, t.readReg r = s.readReg r

/-- The interrupt state `mepc` and `ni` is as before. -/
def SameTrapState (s t : State) : Prop := t.mepc = s.mepc ∧ t.ni = s.ni

/-- Every byte of memory reads as before, and no store was recorded. -/
def SameMemory (s t : State) : Prop := (∀ a, t.byteAt a = s.byteAt a) ∧ t.stored = s.stored

/-- No access was handed to a device, and no device draw was used. -/
def SameDevices (s t : State) : Prop := t.events = s.events ∧ t.draws = s.draws

/-- The requests to come and the platform are as before. -/
def SameInputs (s t : State) : Prop := t.irq = s.irq ∧ t.plat = s.plat

/-- `t` is `s` after an instruction whose whole effect is `x[rd] <- v` and `next_pc = pc + 4`; `x0` still reads
0 when it is `rd`. -/
structure RegResult (s t : State) (rd : RegId) (v : Word) : Prop where
  result : t.readReg rd = if rd = 0#5 then 0#32 else v
  others : SameRegsBut rd s t
  next_pc : t.pc = s.pc + 4#32
  trap : SameTrapState s t
  memory : SameMemory s t
  devices : SameDevices s t
  inputs : SameInputs s t

/-- `t` is `s` after an instruction whose whole effect is on `pc`. -/
structure PcResult (s t : State) (next : Word) : Prop where
  next_pc : t.pc = next
  regs : SameRegs s t
  trap : SameTrapState s t
  memory : SameMemory s t
  devices : SameDevices s t
  inputs : SameInputs s t

/-- `t` is `s` after a jump: the link in `rd`, `pc` at the target, nothing else. -/
structure JumpResult (s t : State) (rd : RegId) (target : Word) : Prop where
  link : t.readReg rd = if rd = 0#5 then 0#32 else s.pc + 4#32
  others : SameRegsBut rd s t
  next_pc : t.pc = target
  trap : SameTrapState s t
  memory : SameMemory s t
  devices : SameDevices s t
  inputs : SameInputs s t

/-- What the access `e` of `n` bytes at `a` does to the device record: a device that it touches gets it, and
the next draw is a fresh one; else nothing. -/
def DeviceRecord (s t : State) (a n : Nat) (e : DeviceEvent) : Prop :=
  (s.touchesDevice a n = true → t.events = e :: s.events ∧ t.draws = s.draws + 1) ∧
  (s.touchesDevice a n = false → t.events = s.events ∧ t.draws = s.draws)

/-- `t` is `s` after a load of `n` bytes at `addr` that puts `v` in `rd`. -/
structure LoadResult (s t : State) (rd : RegId) (addr : Word) (n : Nat) (v : Word) : Prop where
  result : t.readReg rd = if rd = 0#5 then 0#32 else v
  others : SameRegsBut rd s t
  next_pc : t.pc = s.pc + 4#32
  trap : SameTrapState s t
  memory : SameMemory s t
  devices : DeviceRecord s t addr.toNat n (.read addr n)
  inputs : SameInputs s t

/-- `t` is `s` after a store of the `n` bytes of `v` at `addr`: byte `i` of `v` stands at `addr + i` unless a device
is there, every other byte of memory is as before, and exactly the `n` addresses are recorded as stored. -/
structure StoreResult (s t : State) (addr : Word) (n : Nat) (v : Word) : Prop where
  written : ∀ i, i < n → s.isDevice (addr.toNat + i) = false →
    t.byteAt (addr.toNat + i) = v.extractLsb' (8 * i) 8
  device_bytes : ∀ i, i < n → s.isDevice (addr.toNat + i) = true →
    t.byteAt (addr.toNat + i) = s.byteAt (addr.toNat + i)
  outside : ∀ a, (a < addr.toNat ∨ addr.toNat + n ≤ a) → t.byteAt a = s.byteAt a
  recorded : ∀ a, AddrSet.has t.stored a = true ↔
    AddrSet.has s.stored a = true ∨ (addr.toNat ≤ a ∧ a < addr.toNat + n)
  regs : SameRegs s t
  next_pc : t.pc = s.pc + 4#32
  trap : SameTrapState s t
  devices : DeviceRecord s t addr.toNat n (.write addr n v)
  inputs : SameInputs s t

/-- The result `r` of a conditional branch at `s` (`41_jumps_branches.md` section 3), where it answers a next state: at
`pc + imm` when the condition holds and that is a multiple of 4, at `pc + 4` when it does not hold. -/
def BranchCompletes (s : State) (r : Result) (cond : Prop) (imm : Word) : Prop :=
  (cond → (s.pc + imm).toNat % 4 = 0 → ∃ t, r = .next t ∧ PcResult s t (s.pc + imm)) ∧
  (¬cond → ∃ t, r = .next t ∧ PcResult s t (s.pc + 4#32))

/-- The result `r` of a data access at `addr` that is no multiple of `n` (`20_memory.md` R46). -/
def MisalignedFaults (r : Result) (addr : Word) (n : Nat) : Prop :=
  addr.toNat % n ≠ 0 → r = .fault (.misalignedAccess addr n)

/-- The result `r` of an aligned data access at `addr` with a byte the map does not allow (`20_memory.md` R53). -/
def OutsideMapFaults (s : State) (r : Result) (k : AccessKind) (addr : Word) (n : Nat) : Prop :=
  addr.toNat % n = 0 → (∃ j, j < n ∧ s.allowsByte k (addr.toNat + j) = false) →
    r = .fault (.accessOutsideMap addr k)

/-- The general registers that an instruction names in its fields (`10_state.md` R24, `30_encoding.md` R71). -/
def namedRegs : Instr → List RegId
  | .lui rd _ => [rd]
  | .auipc rd _ => [rd]
  | .jal rd _ => [rd]
  | .jalr rd rs1 _ => [rd, rs1]
  | .beq rs1 rs2 _ => [rs1, rs2]
  | .bne rs1 rs2 _ => [rs1, rs2]
  | .blt rs1 rs2 _ => [rs1, rs2]
  | .bge rs1 rs2 _ => [rs1, rs2]
  | .bltu rs1 rs2 _ => [rs1, rs2]
  | .bgeu rs1 rs2 _ => [rs1, rs2]
  | .lb rd rs1 _ => [rd, rs1]
  | .lh rd rs1 _ => [rd, rs1]
  | .lw rd rs1 _ => [rd, rs1]
  | .lbu rd rs1 _ => [rd, rs1]
  | .lhu rd rs1 _ => [rd, rs1]
  | .sb rs2 rs1 _ => [rs2, rs1]
  | .sh rs2 rs1 _ => [rs2, rs1]
  | .sw rs2 rs1 _ => [rs2, rs1]
  | .addi rd rs1 _ => [rd, rs1]
  | .slli rd rs1 _ => [rd, rs1]
  | .slti rd rs1 _ => [rd, rs1]
  | .sltiu rd rs1 _ => [rd, rs1]
  | .xori rd rs1 _ => [rd, rs1]
  | .srli rd rs1 _ => [rd, rs1]
  | .srai rd rs1 _ => [rd, rs1]
  | .ori rd rs1 _ => [rd, rs1]
  | .andi rd rs1 _ => [rd, rs1]
  | .add rd rs1 rs2 => [rd, rs1, rs2]
  | .sub rd rs1 rs2 => [rd, rs1, rs2]
  | .sll rd rs1 rs2 => [rd, rs1, rs2]
  | .slt rd rs1 rs2 => [rd, rs1, rs2]
  | .sltu rd rs1 rs2 => [rd, rs1, rs2]
  | .xor rd rs1 rs2 => [rd, rs1, rs2]
  | .srl rd rs1 rs2 => [rd, rs1, rs2]
  | .sra rd rs1 rs2 => [rd, rs1, rs2]
  | .or rd rs1 rs2 => [rd, rs1, rs2]
  | .and rd rs1 rs2 => [rd, rs1, rs2]
  | .mret => []

/-- A result with its next state changed. -/
def mapNext (f : State → State) : Result → Result
  | .next s => .next (f s)
  | .fault r => .fault r
  | .refused r => .refused r

/-- `k` steps from `s` all answer a next state (no model fault, R161). -/
def State.safeFor (s : State) : Nat → Bool
  | 0 => true
  | k + 1 =>
    match step s with
    | .next t => t.safeFor k
    | .fault _ => false
    | .refused _ => false

/-- The word of `JAL x0, 0` (`70_reset_and_hazards.md` R199). -/
def selfLoop : Word := 0x0000006F#32

/-- `HALT` (R199, decision D21, log 25): a run has ended when `pc` equals the address `halt` that the program names,
which holds `JAL x0, 0`. -/
def State.ended (s : State) (halt : Word) : Bool :=
  s.pc == halt && s.read32 halt.toNat == selfLoop

end Sys2Proof.Machine
end

