-- ==== Sys2Proof/Certificates/Slice0/Obligations.lean ====
section
/-! DEFINITION. The statements for the provers. Where a clause rests on a decision that the spec marks as its own,
or on a choice of the model, the docstring names it and OBLIGATIONS.json gives the basis as derived. -/

open Sys2Proof Sys2Proof.Machine

/-! Reset. -/

/-- What reset leaves: `pc` at `RESET_PC` (the spec's decision D1), interruptible (D2), `x0` reading 0, memory as
the platform provides it (an unlisted byte is the free `Config.initialByte`, log 6), no store made, no access
handed to a device; and `State.reset` starts at 0 (D1's default, log 3). Nothing is said of `x1` to `x31` or
`mepc`, whose values are the model's choice (log 1, 2). -/
def Obligations.ResetLeavesTheGivenValues : Prop :=
  (∀ (p : Platform) (image : Memory) (requests : List Bool),
    (State.resetOn p image requests).pc = p.resetPc ∧
    (State.resetOn p image requests).ni = false ∧
    (State.resetOn p image requests).readReg 0#5 = 0#32 ∧
    (State.resetOn p image requests).mem = image ∧
    (∀ a, image.get a = none →
      (State.resetOn p image requests).byteAt a = Config.initialByte a) ∧
    (State.resetOn p image requests).stored = [] ∧
    (State.resetOn p image requests).events = [] ∧
    (State.resetOn p image requests).irq = requests ∧
    (State.resetOn p image requests).plat = p) ∧
  State.reset.pc = 0x00000000#32 ∧ State.reset.plat.smc = .refuse

/-- The invariant holds right after reset, on every platform whose `RESET_PC` is a multiple of 4 and whose memory
image is in canonical form, and of `State.reset`. -/
def Obligations.ResetMeetsTheInvariant : Prop :=
  (∀ (p : Platform) (image : Memory) (requests : List Bool),
    p.resetPc.toNat % 4 = 0 → image.wf = true → (State.resetOn p image requests).Inv) ∧
  State.reset.Inv

/-- Every step keeps the invariant: `x0` holds 0 (R21), `pc` and `mepc` are multiples of 4 (R27, the spec's decision
D7), memory and the set of stored addresses stay in canonical form. -/
def Obligations.StepKeepsTheInvariant : Prop :=
  ∀ s t : State, s.Inv → step s = .next t → t.Inv

/-! Encoding. -/

/-- Decoding the word of a well-formed instruction gives it back, with every operand at every value that its
encoding admits. -/
def Obligations.DecodeOfEncodeIsIdentity : Prop :=
  ∀ i : Instr, i.wf = true → decode (encode i) = .ok i

/-- A word that decodes is the word of the well-formed instruction it decodes to: no bit of it is dropped, and no
two words decode to the same instruction. For MRET, whose one word fixes `rd` and `rs1` at 0, that is the spec's
decision D5 (log 13). -/
def Obligations.EncodeOfDecodeIsIdentity : Prop :=
  ∀ (w : Word) (i : Instr), decode w = .ok i → i.wf = true ∧ encode i = w

/-- A word is the instruction of a row of R72 exactly when the word masked with the row's mask is the row's match
value. For MRET the full mask is the spec's decision D5 (R73, log 13). -/
def Obligations.DecodeFollowsMaskAndMatch : Prop :=
  ∀ w : Word,
    (∀ i : Instr, decode w = .ok i → w &&& i.row.mask = i.row.pattern) ∧
    (∀ j : Instr, w &&& j.row.mask = j.row.pattern → ∃ i, decode w = .ok i ∧ i.row = j.row)

/-- R70's last sentence: no two rows of R72 match the same word. -/
def Obligations.NoWordMatchesTwoRows : Prop :=
  ∀ (w : Word) (i j : Instr),
    w &&& i.row.mask = i.row.pattern → w &&& j.row.mask = j.row.pattern → i.row = j.row

/-- The spec's decision D4 (R75, log 12): a fetched word that matches no row of R72 is the model fault
`IllegalInstruction`, and nothing is executed. -/
def Obligations.UnlistedWordIsIllegal : Prop :=
  ∀ (s s1 : State) (w : Word), s.fetch = .ok (w, s1) →
    (∀ j : Instr, w &&& j.row.mask ≠ j.row.pattern) →
    step s = .fault (.illegalInstruction w)

/-- Words written out from the encodings of R61 and R72, field by field, decode to the instructions they stand for,
one for each format and group. The fields `rs1` and `rd` of the MRET word are the spec's decision D5 (log 13), that
an unlisted word is refused its decision D4 (log 12). -/
def Obligations.SampleWordsDecode : Prop :=
  decode 0b00010010001101000101_00101_0110111#32 = .ok (.lui 5#5 0x12345000#32) ∧
  decode 0b0_0000001000_0_00000000_00001_1101111#32 = .ok (.jal 1#5 16#32) ∧
  decode 0b1111111_00000_00101_001_1110_1_1100011#32 = .ok (.bne 5#5 0#5 (-4#32)) ∧
  decode 0b111111111111_00110_000_00101_0000011#32 = .ok (.lb 5#5 6#5 (-1#32)) ∧
  decode 0b1111111_00101_00110_001_11110_0100011#32 = .ok (.sh 5#5 6#5 (-2#32)) ∧
  decode 0b0100000_00100_00110_101_00101_0010011#32 = .ok (.srai 5#5 6#5 4#5) ∧
  decode 0b0100000_00111_00110_000_00101_0110011#32 = .ok (.sub 5#5 6#5 7#5) ∧
  decode 0b0011000_00010_00000_000_00000_1110011#32 = .ok .mret ∧
  decode 0x00000000#32 = .error .unlistedOpcode ∧
  decode 0b0000001_00111_00110_000_00101_0110011#32 = .error .unlistedOp

/-- R62, with its table, bit by bit: the five immediates are sign-extended from `inst[31]`, their uncoded low bits
are 0, and the B- and J-immediates are even. -/
def Obligations.ImmediatesFollowTheTable : Prop :=
  ∀ w : Word,
    (∀ k, k < 32 → (immI w).getLsbD k = if k < 11 then w.getLsbD (k + 20) else w.getLsbD 31) ∧
    (∀ k, k < 32 → (immS w).getLsbD k =
      if k < 5 then w.getLsbD (k + 7) else if k < 11 then w.getLsbD (k + 20) else w.getLsbD 31) ∧
    (∀ k, k < 32 → (immB w).getLsbD k =
      if k = 0 then false else if k < 5 then w.getLsbD (k + 7)
      else if k < 11 then w.getLsbD (k + 20) else if k = 11 then w.getLsbD 7
      else w.getLsbD 31) ∧
    (∀ k, k < 32 → (immU w).getLsbD k = if k < 12 then false else w.getLsbD k) ∧
    (∀ k, k < 32 → (immJ w).getLsbD k =
      if k = 0 then false else if k < 11 then w.getLsbD (k + 20)
      else if k = 11 then w.getLsbD 20 else if k < 20 then w.getLsbD k else w.getLsbD 31) ∧
    (immB w).toNat % 2 = 0 ∧ (immJ w).toNat % 2 = 0

/-! The step and the fetch. -/

/-- When the four bytes at `pc`, least significant first, are executable plain memory that the policy lets be
fetched, and they decode to `i`, a step is the effect of `i` at that state, followed by the end of the instruction
(`State.retire`: the interrupt, or none, and the next request); and whatever a fetch answers, device fetches too,
the decoded instruction is what runs, at the state the fetch left. The byte order of a fetch is the spec's decision
D10 (log 26), the policy its decision D13 (log 9). -/
def Obligations.StepRunsTheDecodedInstruction : Prop :=
  (∀ (s : State) (i : Instr),
    s.pc.toNat % 4 = 0 → s.allows .fetch s.pc.toNat 4 = true →
    (s.plat.smc = .coherent ∨ ∀ k, k < 4 → AddrSet.has s.stored (s.pc.toNat + k) = false) →
    s.touchesDevice s.pc.toNat 4 = false →
    decode (s.byteAt (s.pc.toNat + 3) ++ s.byteAt (s.pc.toNat + 2) ++ s.byteAt (s.pc.toNat + 1)
      ++ s.byteAt s.pc.toNat) = .ok i →
    step s = mapNext s.retire (exec i s)) ∧
  (∀ (s s1 : State) (w : Word) (i : Instr), s.fetch = .ok (w, s1) → decode w = .ok i →
    step s = mapNext s1.retire (exec i s1))

/-- The fetch faults in the order of R161, and the fetch that raises none (the spec's decisions D7, D10, D13, D16,
D18; log 7, 9, 15, 16, 26): `pc` no multiple of 4, a byte outside the executable map, a byte stored in this run
under `refuse`. The last clause also fixes what is the model's choice: a fetch that touches a device is an event
and uses a draw (log 8), and a fetch that spans plain memory and a device reads byte by byte, with one event (log
23, unsafe). -/
def Obligations.FetchChecksInOrder : Prop :=
  ∀ s : State,
    (s.pc.toNat % 4 ≠ 0 → step s = .fault (.misalignedTarget s.pc)) ∧
    (s.pc.toNat % 4 = 0 → (∃ k, k < 4 ∧ s.allowsByte .fetch (s.pc.toNat + k) = false) →
      step s = .fault (.accessOutsideMap s.pc .fetch)) ∧
    (s.pc.toNat % 4 = 0 → (∀ k, k < 4 → s.allowsByte .fetch (s.pc.toNat + k) = true) →
      s.plat.smc = .refuse → (∃ k, k < 4 ∧ AddrSet.has s.stored (s.pc.toNat + k) = true) →
      step s = .fault (.fetchOfModifiedCode s.pc)) ∧
    (s.pc.toNat % 4 = 0 → (∀ k, k < 4 → s.allowsByte .fetch (s.pc.toNat + k) = true) →
      (s.plat.smc = .coherent ∨ ∀ k, k < 4 → AddrSet.has s.stored (s.pc.toNat + k) = false) →
      ∃ s1, s.fetch = .ok (s.readByte (s.pc.toNat + 3) ++ s.readByte (s.pc.toNat + 2)
        ++ s.readByte (s.pc.toNat + 1) ++ s.readByte s.pc.toNat, s1) ∧
        DeviceRecord s s1 s.pc.toNat 4 (.fetch s.pc) ∧ SameRegs s s1 ∧ SameTrapState s s1 ∧
        SameMemory s s1 ∧ SameInputs s s1 ∧ s1.pc = s.pc)

/-- `SMC_POLICY` (R58, the spec's decision D13, log 9): after SW, a fetch of the stored word faults under `refuse`,
and under `coherent` it reads the stored word. -/
def Obligations.FetchOfStoredWordFollowsPolicy : Prop :=
  ∀ (s t : State) (rs2 rs1 : RegId) (imm : Word), exec (.sw rs2 rs1 imm) s = .next t →
    t.allows .fetch (s.readReg rs1 + imm).toNat 4 = true →
    (s.plat.smc = .refuse →
      (t.setPc (s.readReg rs1 + imm)).fetch = .error (.fetchOfModifiedCode (s.readReg rs1 + imm))) ∧
    (s.plat.smc = .coherent → s.touchesDevice (s.readReg rs1 + imm).toNat 4 = false →
      (t.setPc (s.readReg rs1 + imm)).fetch =
        .ok (s.readReg rs2, t.setPc (s.readReg rs1 + imm)))

/-! Register-register operations. -/

/-- ADD and SUB, from their encoding to their whole effect. That sums and differences are taken modulo 2^32 is the
spec's decision D9 (R151 b, log 19). -/
def Obligations.AddAndSubtract : Prop :=
  ∀ rd rs1 rs2 : RegId,
    decode (0b0000000#7 ++ rs2 ++ rs1 ++ 0b000#3 ++ rd ++ 0b0110011#7) = .ok (.add rd rs1 rs2) ∧
    decode (0b0100000#7 ++ rs2 ++ rs1 ++ 0b000#3 ++ rd ++ 0b0110011#7) = .ok (.sub rd rs1 rs2) ∧
    ∀ s : State,
      (∃ t v, exec (.add rd rs1 rs2) s = .next t ∧ RegResult s t rd v ∧
        v.toNat = ((s.readReg rs1).toNat + (s.readReg rs2).toNat) % 2 ^ 32) ∧
      (∃ t v, exec (.sub rd rs1 rs2) s = .next t ∧ RegResult s t rd v ∧
        (v.toNat : Int) = ((s.readReg rs1).toNat - (s.readReg rs2).toNat : Int) % 2 ^ 32)

/-- SLL, from its encoding to its whole effect. That the shift amount is `x[rs2][4:0]` is the spec's resolution of its
conflict C1 (log 17), not the source's own row. -/
def Obligations.ShiftLeftByRegister : Prop :=
  ∀ rd rs1 rs2 : RegId,
    decode (0b0000000#7 ++ rs2 ++ rs1 ++ 0b001#3 ++ rd ++ 0b0110011#7) = .ok (.sll rd rs1 rs2) ∧
    ∀ s : State, ∃ t v, exec (.sll rd rs1 rs2) s = .next t ∧ RegResult s t rd v ∧
      ∀ k, k < 32 → v.getLsbD k =
        if k < (s.readReg rs2).toNat % 32 then false
        else (s.readReg rs1).getLsbD (k - (s.readReg rs2).toNat % 32)

/-- R147, R148: SRL and SRA, from their encoding to their whole effect: the shift amount is `x[rs2][4:0]`; zeros
enter at bit 31, or copies of the source's bit 31. -/
def Obligations.ShiftRightByRegister : Prop :=
  ∀ rd rs1 rs2 : RegId,
    decode (0b0000000#7 ++ rs2 ++ rs1 ++ 0b101#3 ++ rd ++ 0b0110011#7) = .ok (.srl rd rs1 rs2) ∧
    decode (0b0100000#7 ++ rs2 ++ rs1 ++ 0b101#3 ++ rd ++ 0b0110011#7) = .ok (.sra rd rs1 rs2) ∧
    ∀ s : State,
      (∃ t v, exec (.srl rd rs1 rs2) s = .next t ∧ RegResult s t rd v ∧
        ∀ k, k < 32 → v.getLsbD k =
          if k + (s.readReg rs2).toNat % 32 < 32
          then (s.readReg rs1).getLsbD (k + (s.readReg rs2).toNat % 32) else false) ∧
      (∃ t v, exec (.sra rd rs1 rs2) s = .next t ∧ RegResult s t rd v ∧
        ∀ k, k < 32 → v.getLsbD k =
          if k + (s.readReg rs2).toNat % 32 < 32
          then (s.readReg rs1).getLsbD (k + (s.readReg rs2).toNat % 32)
          else (s.readReg rs1).getLsbD 31)

/-- R144, R145: SLT and SLTU, from their encoding to their whole effect. -/
def Obligations.SetOnLessThan : Prop :=
  ∀ rd rs1 rs2 : RegId,
    decode (0b0000000#7 ++ rs2 ++ rs1 ++ 0b010#3 ++ rd ++ 0b0110011#7) = .ok (.slt rd rs1 rs2) ∧
    decode (0b0000000#7 ++ rs2 ++ rs1 ++ 0b011#3 ++ rd ++ 0b0110011#7) = .ok (.sltu rd rs1 rs2) ∧
    ∀ s : State,
      (∃ t, exec (.slt rd rs1 rs2) s = .next t ∧ RegResult s t rd
        (if (s.readReg rs1).toInt < (s.readReg rs2).toInt then 0x00000001#32 else 0x00000000#32)) ∧
      (∃ t, exec (.sltu rd rs1 rs2) s = .next t ∧ RegResult s t rd
        (if (s.readReg rs1).toNat < (s.readReg rs2).toNat then 0x00000001#32 else 0x00000000#32))

/-- R146, R149, R150: XOR, OR and AND, from their encoding to their whole effect, bit by bit. -/
def Obligations.BitwiseByRegister : Prop :=
  ∀ rd rs1 rs2 : RegId,
    decode (0b0000000#7 ++ rs2 ++ rs1 ++ 0b100#3 ++ rd ++ 0b0110011#7) = .ok (.xor rd rs1 rs2) ∧
    decode (0b0000000#7 ++ rs2 ++ rs1 ++ 0b110#3 ++ rd ++ 0b0110011#7) = .ok (.or rd rs1 rs2) ∧
    decode (0b0000000#7 ++ rs2 ++ rs1 ++ 0b111#3 ++ rd ++ 0b0110011#7) = .ok (.and rd rs1 rs2) ∧
    ∀ s : State,
      (∃ t v, exec (.xor rd rs1 rs2) s = .next t ∧ RegResult s t rd v ∧ ∀ k, k < 32 →
        v.getLsbD k = ((s.readReg rs1).getLsbD k ^^ (s.readReg rs2).getLsbD k)) ∧
      (∃ t v, exec (.or rd rs1 rs2) s = .next t ∧ RegResult s t rd v ∧ ∀ k, k < 32 →
        v.getLsbD k = ((s.readReg rs1).getLsbD k || (s.readReg rs2).getLsbD k)) ∧
      (∃ t v, exec (.and rd rs1 rs2) s = .next t ∧ RegResult s t rd v ∧ ∀ k, k < 32 →
        v.getLsbD k = ((s.readReg rs1).getLsbD k && (s.readReg rs2).getLsbD k))

/-! Register-immediate operations. -/

/-- ADDI, from its encoding to its whole effect, for every immediate; the sum wraps by the spec's decision D9 (log
19). -/
def Obligations.AddImmediate : Prop :=
  ∀ (rd rs1 : RegId) (imm : BitVec 12),
    decode (imm ++ rs1 ++ 0b000#3 ++ rd ++ 0b0010011#7) = .ok (.addi rd rs1 (imm.signExtend 32)) ∧
    ∀ s : State, ∃ t v, exec (.addi rd rs1 (imm.signExtend 32)) s = .next t ∧ RegResult s t rd v ∧
      (v.toNat : Int) = ((s.readReg rs1).toNat + imm.toInt) % 2 ^ 32

/-- R133: SLTI, from its encoding to its whole effect, for every immediate. -/
def Obligations.SetOnLessThanImmediate : Prop :=
  ∀ (rd rs1 : RegId) (imm : BitVec 12),
    decode (imm ++ rs1 ++ 0b010#3 ++ rd ++ 0b0010011#7) = .ok (.slti rd rs1 (imm.signExtend 32)) ∧
    ∀ s : State, ∃ t, exec (.slti rd rs1 (imm.signExtend 32)) s = .next t ∧ RegResult s t rd
      (if (s.readReg rs1).toInt < imm.toInt then 0x00000001#32 else 0x00000000#32)

/-- SLTIU, from its encoding to its whole effect, for every immediate. That it compares the sign-extended immediate as
an unsigned number is R134's derivation from the source's sentence on sign extension. -/
def Obligations.SetOnLessThanImmediateUnsigned : Prop :=
  ∀ (rd rs1 : RegId) (imm : BitVec 12),
    decode (imm ++ rs1 ++ 0b011#3 ++ rd ++ 0b0010011#7) = .ok (.sltiu rd rs1 (imm.signExtend 32)) ∧
    ∀ s : State, ∃ t, exec (.sltiu rd rs1 (imm.signExtend 32)) s = .next t ∧ RegResult s t rd
      (if ((s.readReg rs1).toNat : Int) < imm.toInt % 2 ^ 32
        then 0x00000001#32 else 0x00000000#32)

/-- R135, R138, R139: XORI, ORI and ANDI, from their encoding to their whole effect; the immediate's bit 11 stands for
all higher bits. -/
def Obligations.BitwiseImmediate : Prop :=
  ∀ (rd rs1 : RegId) (imm : BitVec 12),
    decode (imm ++ rs1 ++ 0b100#3 ++ rd ++ 0b0010011#7) = .ok (.xori rd rs1 (imm.signExtend 32)) ∧
    decode (imm ++ rs1 ++ 0b110#3 ++ rd ++ 0b0010011#7) = .ok (.ori rd rs1 (imm.signExtend 32)) ∧
    decode (imm ++ rs1 ++ 0b111#3 ++ rd ++ 0b0010011#7) = .ok (.andi rd rs1 (imm.signExtend 32)) ∧
    ∀ s : State,
      (∃ t v, exec (.xori rd rs1 (imm.signExtend 32)) s = .next t ∧ RegResult s t rd v ∧
        ∀ k, k < 32 → v.getLsbD k = ((s.readReg rs1).getLsbD k ^^ imm.getLsbD (min k 11))) ∧
      (∃ t v, exec (.ori rd rs1 (imm.signExtend 32)) s = .next t ∧ RegResult s t rd v ∧
        ∀ k, k < 32 → v.getLsbD k = ((s.readReg rs1).getLsbD k || imm.getLsbD (min k 11))) ∧
      (∃ t v, exec (.andi rd rs1 (imm.signExtend 32)) s = .next t ∧ RegResult s t rd v ∧
        ∀ k, k < 32 → v.getLsbD k = ((s.readReg rs1).getLsbD k && imm.getLsbD (min k 11)))

/-- R132, R136, R137: SLLI, SRLI and SRAI, from their encoding to their whole effect, for every shift amount, bit by
bit. -/
def Obligations.ShiftImmediate : Prop :=
  ∀ (rd rs1 : RegId) (shamt : Shamt),
    decode (0b0000000#7 ++ shamt ++ rs1 ++ 0b001#3 ++ rd ++ 0b0010011#7)
      = .ok (.slli rd rs1 shamt) ∧
    decode (0b0000000#7 ++ shamt ++ rs1 ++ 0b101#3 ++ rd ++ 0b0010011#7)
      = .ok (.srli rd rs1 shamt) ∧
    decode (0b0100000#7 ++ shamt ++ rs1 ++ 0b101#3 ++ rd ++ 0b0010011#7)
      = .ok (.srai rd rs1 shamt) ∧
    ∀ s : State,
      (∃ t v, exec (.slli rd rs1 shamt) s = .next t ∧ RegResult s t rd v ∧
        ∀ k, k < 32 → v.getLsbD k =
          if k < shamt.toNat then false else (s.readReg rs1).getLsbD (k - shamt.toNat)) ∧
      (∃ t v, exec (.srli rd rs1 shamt) s = .next t ∧ RegResult s t rd v ∧
        ∀ k, k < 32 → v.getLsbD k =
          if k + shamt.toNat < 32 then (s.readReg rs1).getLsbD (k + shamt.toNat) else false) ∧
      (∃ t v, exec (.srai rd rs1 shamt) s = .next t ∧ RegResult s t rd v ∧
        ∀ k, k < 32 → v.getLsbD k =
          if k + shamt.toNat < 32 then (s.readReg rs1).getLsbD (k + shamt.toNat)
          else (s.readReg rs1).getLsbD 31)

/-! Upper-immediate instructions. -/

/-- R100: LUI, from its encoding to its whole effect, for every immediate. -/
def Obligations.LoadUpperImmediate : Prop :=
  ∀ (rd : RegId) (imm : BitVec 20),
    decode (imm ++ rd ++ 0b0110111#7) = .ok (.lui rd (imm ++ 0#12)) ∧
    ∀ s : State, ∃ t v, exec (.lui rd (imm ++ 0#12)) s = .next t ∧ RegResult s t rd v ∧
      v.toNat = imm.toNat * 4096

/-- AUIPC, from its encoding to its whole effect, for every immediate. That `pc` is the address of the AUIPC itself is
the reading of R25 (log 21), that the sum wraps the spec's decision D9 (log 19). -/
def Obligations.AddUpperImmediateToPc : Prop :=
  ∀ (rd : RegId) (imm : BitVec 20),
    decode (imm ++ rd ++ 0b0010111#7) = .ok (.auipc rd (imm ++ 0#12)) ∧
    ∀ s : State, ∃ t v, exec (.auipc rd (imm ++ 0#12)) s = .next t ∧ RegResult s t rd v ∧
      v.toNat = (s.pc.toNat + imm.toNat * 4096) % 2 ^ 32

/-! Jumps and branches. -/

/-- JAL, from its encoding to its whole effect, for every immediate whose target is a multiple of 4 (the spec's
decision D7, log 15, for the others, stated in `MisalignedTargetFaults`; the sums wrap by D9, log 19). -/
def Obligations.JumpAndLink : Prop :=
  ∀ (rd : RegId) (b20 b11 : BitVec 1) (b10 : BitVec 10) (b19 : BitVec 8),
    decode (b20 ++ b10 ++ b11 ++ b19 ++ rd ++ 0b1101111#7)
      = .ok (.jal rd ((b20 ++ b19 ++ b11 ++ b10 ++ 0#1 : BitVec 21).signExtend 32)) ∧
    ∀ (s : State) (imm : Word),
      imm = (b20 ++ b19 ++ b11 ++ b10 ++ 0#1 : BitVec 21).signExtend 32 →
      (s.pc + imm).toNat % 4 = 0 →
      ∃ t, exec (.jal rd imm) s = .next t ∧ JumpResult s t rd (s.pc + imm)

/-- JALR, from its encoding to its whole effect, for every target that is a multiple of 4; `rd = rs1` included: the
target uses the old register (the spec's decision D8, log 18). The other targets are decision D7 (log 15, stated in
`MisalignedTargetFaults`), and the sums wrap by D9 (log 19). -/
def Obligations.JumpAndLinkRegister : Prop :=
  ∀ (rd rs1 : RegId) (imm : BitVec 12),
    decode (imm ++ rs1 ++ 0b000#3 ++ rd ++ 0b1100111#7) = .ok (.jalr rd rs1 (imm.signExtend 32)) ∧
    ∀ s : State, (s.readReg rs1 + imm.signExtend 32).toNat % 4 = 0 →
      ∃ t, exec (.jalr rd rs1 (imm.signExtend 32)) s = .next t ∧
        JumpResult s t rd (s.readReg rs1 + imm.signExtend 32)

/-- BEQ and BNE, from their encoding to their whole effect where they complete: a taken branch to a target that is
no multiple of 4 is the spec's decision D7 (log 15, stated in `MisalignedTargetFaults`), and the sums wrap by D9
(log 19). -/
def Obligations.BranchOnEquality : Prop :=
  ∀ (rs1 rs2 : RegId) (b12 b11 : BitVec 1) (b10 : BitVec 6) (b4 : BitVec 4) (imm : Word),
    imm = (b12 ++ b11 ++ b10 ++ b4 ++ 0#1 : BitVec 13).signExtend 32 →
    decode (b12 ++ b10 ++ rs2 ++ rs1 ++ 0b000#3 ++ b4 ++ b11 ++ 0b1100011#7)
      = .ok (.beq rs1 rs2 imm) ∧
    decode (b12 ++ b10 ++ rs2 ++ rs1 ++ 0b001#3 ++ b4 ++ b11 ++ 0b1100011#7)
      = .ok (.bne rs1 rs2 imm) ∧
    ∀ s : State,
      BranchCompletes s (exec (.beq rs1 rs2 imm) s) (s.readReg rs1 = s.readReg rs2) imm ∧
      BranchCompletes s (exec (.bne rs1 rs2 imm) s) (s.readReg rs1 ≠ s.readReg rs2) imm

/-- BLT and BGE, from their encoding to their whole effect where they complete; the comparison is signed. A taken
branch to a target that is no multiple of 4 is the spec's decision D7 (log 15, stated in `MisalignedTargetFaults`),
and the sums wrap by D9 (log 19). -/
def Obligations.BranchOnSignedOrder : Prop :=
  ∀ (rs1 rs2 : RegId) (b12 b11 : BitVec 1) (b10 : BitVec 6) (b4 : BitVec 4) (imm : Word),
    imm = (b12 ++ b11 ++ b10 ++ b4 ++ 0#1 : BitVec 13).signExtend 32 →
    decode (b12 ++ b10 ++ rs2 ++ rs1 ++ 0b100#3 ++ b4 ++ b11 ++ 0b1100011#7)
      = .ok (.blt rs1 rs2 imm) ∧
    decode (b12 ++ b10 ++ rs2 ++ rs1 ++ 0b101#3 ++ b4 ++ b11 ++ 0b1100011#7)
      = .ok (.bge rs1 rs2 imm) ∧
    ∀ s : State,
      BranchCompletes s (exec (.blt rs1 rs2 imm) s)
        ((s.readReg rs1).toInt < (s.readReg rs2).toInt) imm ∧
      BranchCompletes s (exec (.bge rs1 rs2 imm) s)
        ((s.readReg rs1).toInt ≥ (s.readReg rs2).toInt) imm

/-- BLTU and BGEU, from their encoding to their whole effect where they complete; the comparison is unsigned. A
taken branch to a target that is no multiple of 4 is the spec's decision D7 (log 15, stated in
`MisalignedTargetFaults`), and the sums wrap by D9 (log 19). -/
def Obligations.BranchOnUnsignedOrder : Prop :=
  ∀ (rs1 rs2 : RegId) (b12 b11 : BitVec 1) (b10 : BitVec 6) (b4 : BitVec 4) (imm : Word),
    imm = (b12 ++ b11 ++ b10 ++ b4 ++ 0#1 : BitVec 13).signExtend 32 →
    decode (b12 ++ b10 ++ rs2 ++ rs1 ++ 0b110#3 ++ b4 ++ b11 ++ 0b1100011#7)
      = .ok (.bltu rs1 rs2 imm) ∧
    decode (b12 ++ b10 ++ rs2 ++ rs1 ++ 0b111#3 ++ b4 ++ b11 ++ 0b1100011#7)
      = .ok (.bgeu rs1 rs2 imm) ∧
    ∀ s : State,
      BranchCompletes s (exec (.bltu rs1 rs2 imm) s)
        ((s.readReg rs1).toNat < (s.readReg rs2).toNat) imm ∧
      BranchCompletes s (exec (.bgeu rs1 rs2 imm) s)
        ((s.readReg rs1).toNat ≥ (s.readReg rs2).toNat) imm

/-- The spec's decision D7 (R110, R177, log 15): a jump, a taken branch or MRET whose target is no multiple of 4
raises `MisalignedTarget` with that target; no bit of a JALR target is cleared. -/
def Obligations.MisalignedTargetFaults : Prop :=
  ∀ (s : State) (rd rs1 rs2 : RegId) (imm : Word),
    ((s.pc + imm).toNat % 4 ≠ 0 →
      exec (.jal rd imm) s = .fault (.misalignedTarget (s.pc + imm)) ∧
      (s.readReg rs1 = s.readReg rs2 →
        exec (.beq rs1 rs2 imm) s = .fault (.misalignedTarget (s.pc + imm))) ∧
      (s.readReg rs1 ≠ s.readReg rs2 →
        exec (.bne rs1 rs2 imm) s = .fault (.misalignedTarget (s.pc + imm))) ∧
      ((s.readReg rs1).toInt < (s.readReg rs2).toInt →
        exec (.blt rs1 rs2 imm) s = .fault (.misalignedTarget (s.pc + imm))) ∧
      ((s.readReg rs1).toInt ≥ (s.readReg rs2).toInt →
        exec (.bge rs1 rs2 imm) s = .fault (.misalignedTarget (s.pc + imm))) ∧
      ((s.readReg rs1).toNat < (s.readReg rs2).toNat →
        exec (.bltu rs1 rs2 imm) s = .fault (.misalignedTarget (s.pc + imm))) ∧
      ((s.readReg rs1).toNat ≥ (s.readReg rs2).toNat →
        exec (.bgeu rs1 rs2 imm) s = .fault (.misalignedTarget (s.pc + imm)))) ∧
    ((s.readReg rs1 + imm).toNat % 4 ≠ 0 →
      exec (.jalr rd rs1 imm) s = .fault (.misalignedTarget (s.readReg rs1 + imm))) ∧
    (s.mepc.toNat % 4 ≠ 0 → exec .mret s = .fault (.misalignedTarget s.mepc))

/-! Loads and stores. -/

/-- LB and LBU, from their encoding to their whole effect at every readable byte: the byte, sign- or zero-extended;
where a device stands, its free answer and one event (the spec's decision D18, in the model's form, log 8). The
address wraps by D9 (log 19). -/
def Obligations.LoadByte : Prop :=
  ∀ (rd rs1 : RegId) (imm : BitVec 12),
    decode (imm ++ rs1 ++ 0b000#3 ++ rd ++ 0b0000011#7) = .ok (.lb rd rs1 (imm.signExtend 32)) ∧
    decode (imm ++ rs1 ++ 0b100#3 ++ rd ++ 0b0000011#7) = .ok (.lbu rd rs1 (imm.signExtend 32)) ∧
    ∀ (s : State) (a : Word), a = s.readReg rs1 + imm.signExtend 32 →
      s.allowsByte .read a.toNat = true →
      (∃ t v, exec (.lb rd rs1 (imm.signExtend 32)) s = .next t ∧ LoadResult s t rd a 1 v ∧
        v.toInt = (s.readByte a.toNat).toInt) ∧
      (∃ t v, exec (.lbu rd rs1 (imm.signExtend 32)) s = .next t ∧ LoadResult s t rd a 1 v ∧
        v.toNat = (s.readByte a.toNat).toNat)

/-- LH and LHU, from their encoding to their whole effect at every even address of two readable bytes: the half
word, least significant byte first, sign- or zero-extended. The address wraps by D9 (log 19). A device's bytes are
its free answers, with one event for the access (D18, in the model's form, log 8); that a half word which spans
plain memory and a device is read byte by byte, with that one event, is the model's choice (log 23, unsafe). -/
def Obligations.LoadHalfWord : Prop :=
  ∀ (rd rs1 : RegId) (imm : BitVec 12),
    decode (imm ++ rs1 ++ 0b001#3 ++ rd ++ 0b0000011#7) = .ok (.lh rd rs1 (imm.signExtend 32)) ∧
    decode (imm ++ rs1 ++ 0b101#3 ++ rd ++ 0b0000011#7) = .ok (.lhu rd rs1 (imm.signExtend 32)) ∧
    ∀ (s : State) (a : Word), a = s.readReg rs1 + imm.signExtend 32 → a.toNat % 2 = 0 →
      (∀ j, j < 2 → s.allowsByte .read (a.toNat + j) = true) →
      (∃ t v, exec (.lh rd rs1 (imm.signExtend 32)) s = .next t ∧ LoadResult s t rd a 2 v ∧
        v.toInt = (s.readByte a.toNat).toNat + 256 * (s.readByte (a.toNat + 1)).toInt) ∧
      (∃ t v, exec (.lhu rd rs1 (imm.signExtend 32)) s = .next t ∧ LoadResult s t rd a 2 v ∧
        v.toNat = (s.readByte a.toNat).toNat + 256 * (s.readByte (a.toNat + 1)).toNat)

/-- LW, from its encoding to its whole effect at every multiple of 4 with four readable bytes: the word, least
significant byte first. The address wraps by D9 (log 19). A device's bytes are its free answers, with one event for
the access (D18, in the model's form, log 8); that a word which spans plain memory and a device is read byte by
byte, with that one event, is the model's choice (log 23, unsafe). -/
def Obligations.LoadWord : Prop :=
  ∀ (rd rs1 : RegId) (imm : BitVec 12),
    decode (imm ++ rs1 ++ 0b010#3 ++ rd ++ 0b0000011#7) = .ok (.lw rd rs1 (imm.signExtend 32)) ∧
    ∀ (s : State) (a : Word), a = s.readReg rs1 + imm.signExtend 32 → a.toNat % 4 = 0 →
      (∀ j, j < 4 → s.allowsByte .read (a.toNat + j) = true) →
      ∃ t v, exec (.lw rd rs1 (imm.signExtend 32)) s = .next t ∧ LoadResult s t rd a 4 v ∧
        v.toNat = (s.readByte a.toNat).toNat + 256 * (s.readByte (a.toNat + 1)).toNat
          + 65536 * (s.readByte (a.toNat + 2)).toNat
          + 16777216 * (s.readByte (a.toNat + 3)).toNat

/-- SB, from its encoding to its whole effect at every writable byte. That a store's addresses, a device's
included, are recorded as stored is the model's form of the spec's decision D13 (log 9); the event for a device is
D18 in the model's form (log 8); the address wraps by D9 (log 19). -/
def Obligations.StoreByte : Prop :=
  ∀ (rs2 rs1 : RegId) (hi : BitVec 7) (lo : BitVec 5) (imm : Word),
    imm = (hi ++ lo : BitVec 12).signExtend 32 →
    decode (hi ++ rs2 ++ rs1 ++ 0b000#3 ++ lo ++ 0b0100011#7) = .ok (.sb rs2 rs1 imm) ∧
    ∀ (s : State) (a : Word), a = s.readReg rs1 + imm → s.allowsByte .write a.toNat = true →
      ∃ t, exec (.sb rs2 rs1 imm) s = .next t ∧
        StoreResult s t a 1 (((s.readReg rs2).extractLsb' 0 8).setWidth 32)

/-- SH, from its encoding to its whole effect at every even address of two writable bytes. That a store's
addresses, a device's included, are recorded as stored is the model's form of the spec's decision D13 (log 9); the
event for a device is D18 in the model's form (log 8); the address wraps by D9 (log 19). That a store of a half
word which spans plain memory and a device goes byte by byte, with one event, is the model's choice (log 23,
unsafe). -/
def Obligations.StoreHalfWord : Prop :=
  ∀ (rs2 rs1 : RegId) (hi : BitVec 7) (lo : BitVec 5) (imm : Word),
    imm = (hi ++ lo : BitVec 12).signExtend 32 →
    decode (hi ++ rs2 ++ rs1 ++ 0b001#3 ++ lo ++ 0b0100011#7) = .ok (.sh rs2 rs1 imm) ∧
    ∀ (s : State) (a : Word), a = s.readReg rs1 + imm → a.toNat % 2 = 0 →
      (∀ j, j < 2 → s.allowsByte .write (a.toNat + j) = true) →
      ∃ t, exec (.sh rs2 rs1 imm) s = .next t ∧
        StoreResult s t a 2 (((s.readReg rs2).extractLsb' 0 16).setWidth 32)

/-- SW, from its encoding to its whole effect at every multiple of 4 with four writable bytes. That a store's
addresses, a device's included, are recorded as stored is the model's form of the spec's decision D13 (log 9); the
event for a device is D18 in the model's form (log 8); the address wraps by D9 (log 19). That a store of a word
which spans plain memory and a device goes byte by byte, with one event, is the model's choice (log 23, unsafe). -/
def Obligations.StoreWord : Prop :=
  ∀ (rs2 rs1 : RegId) (hi : BitVec 7) (lo : BitVec 5) (imm : Word),
    imm = (hi ++ lo : BitVec 12).signExtend 32 →
    decode (hi ++ rs2 ++ rs1 ++ 0b010#3 ++ lo ++ 0b0100011#7) = .ok (.sw rs2 rs1 imm) ∧
    ∀ (s : State) (a : Word), a = s.readReg rs1 + imm → a.toNat % 4 = 0 →
      (∀ j, j < 4 → s.allowsByte .write (a.toNat + j) = true) →
      ∃ t, exec (.sw rs2 rs1 imm) s = .next t ∧ StoreResult s t a 4 (s.readReg rs2)

/-- The spec's decision D6 (R46, log 14): a half-word access at an odd address and a word access at an address that is
no multiple of 4 raise `MisalignedAccess`, whatever the map says of it (R120) and whatever `rd` is. -/
def Obligations.MisalignedDataFaults : Prop :=
  ∀ (s : State) (r rs1 : RegId) (imm a : Word), a = s.readReg rs1 + imm →
    MisalignedFaults (exec (.lh r rs1 imm) s) a 2 ∧
    MisalignedFaults (exec (.lhu r rs1 imm) s) a 2 ∧
    MisalignedFaults (exec (.sh r rs1 imm) s) a 2 ∧
    MisalignedFaults (exec (.lw r rs1 imm) s) a 4 ∧
    MisalignedFaults (exec (.sw r rs1 imm) s) a 4

/-- The spec's decision D18 (R53, log 7, 16): an aligned access with a byte that the map does not allow for its kind
raises `AccessOutsideMap`. -/
def Obligations.UnmappedDataFaults : Prop :=
  ∀ (s : State) (r rs1 : RegId) (imm a : Word), a = s.readReg rs1 + imm →
    OutsideMapFaults s (exec (.lb r rs1 imm) s) .read a 1 ∧
    OutsideMapFaults s (exec (.lbu r rs1 imm) s) .read a 1 ∧
    OutsideMapFaults s (exec (.lh r rs1 imm) s) .read a 2 ∧
    OutsideMapFaults s (exec (.lhu r rs1 imm) s) .read a 2 ∧
    OutsideMapFaults s (exec (.lw r rs1 imm) s) .read a 4 ∧
    OutsideMapFaults s (exec (.sb r rs1 imm) s) .write a 1 ∧
    OutsideMapFaults s (exec (.sh r rs1 imm) s) .write a 2 ∧
    OutsideMapFaults s (exec (.sw r rs1 imm) s) .write a 4

/-- The spec's decision D17 (R129, log 28): a load to `x0` of a device still makes its access, one of the load's
width, and no register changes. That the access is an event is the spec's decision D18 in the model's form (log 8);
that a half word or word which spans plain memory and a device is one event of the whole width is the model's
choice (log 23, unsafe). -/
def Obligations.LoadToX0StillAccesses : Prop :=
  ∀ (s : State) (rs1 : RegId) (imm a : Word), a = s.readReg rs1 + imm →
    (s.allowsByte .read a.toNat = true → s.isDevice a.toNat = true →
      (∃ t, exec (.lb 0#5 rs1 imm) s = .next t ∧ t.events = .read a 1 :: s.events ∧ SameRegs s t) ∧
      (∃ t, exec (.lbu 0#5 rs1 imm) s = .next t ∧ t.events = .read a 1 :: s.events ∧
        SameRegs s t)) ∧
    (a.toNat % 2 = 0 → s.allows .read a.toNat 2 = true → s.touchesDevice a.toNat 2 = true →
      (∃ t, exec (.lh 0#5 rs1 imm) s = .next t ∧ t.events = .read a 2 :: s.events ∧ SameRegs s t) ∧
      (∃ t, exec (.lhu 0#5 rs1 imm) s = .next t ∧ t.events = .read a 2 :: s.events ∧
        SameRegs s t)) ∧
    (a.toNat % 4 = 0 → s.allows .read a.toNat 4 = true → s.touchesDevice a.toNat 4 = true →
      ∃ t, exec (.lw 0#5 rs1 imm) s = .next t ∧ t.events = .read a 4 :: s.events ∧ SameRegs s t)

/-- R51, decision D18 (log 8): a read of a device's byte is a free draw, a read of plain memory is what memory holds,
and a write to a device leaves memory as it is. -/
def Obligations.DeviceBytesAreDraws : Prop :=
  ∀ (s : State) (a x : Nat) (b : Byte),
    (s.isDevice a = true → s.readByte a = Config.deviceByte s.draws a ∧
      (s.writeByte a b).byteAt x = s.byteAt x) ∧
    (s.isDevice a = false → s.readByte a = s.byteAt a ∧
      (s.writeByte a b).byteAt x = if x = a then b else s.byteAt x)

/-- Memory is little-endian (R42). A word or a half word written at plain addresses stands least significant byte
first, and reads of every width see the bytes so placed. -/
def Obligations.MemoryIsLittleEndian : Prop :=
  ∀ (s : State) (a : Nat) (v : Word),
    (s.touchesDevice a 2 = false →
      (s.writeBytes a v 2).byteAt a = v.extractLsb' 0 8 ∧
      (s.writeBytes a v 2).byteAt (a + 1) = v.extractLsb' 8 8 ∧
      (s.writeBytes a v 2).read16 a = v.extractLsb' 0 16) ∧
    (s.touchesDevice a 4 = false →
      (s.writeBytes a v 4).byteAt a = v.extractLsb' 0 8 ∧
      (s.writeBytes a v 4).byteAt (a + 1) = v.extractLsb' 8 8 ∧
      (s.writeBytes a v 4).byteAt (a + 2) = v.extractLsb' 16 8 ∧
      (s.writeBytes a v 4).byteAt (a + 3) = v.extractLsb' 24 8 ∧
      (s.writeBytes a v 4).read8 a = v.extractLsb' 0 8 ∧
      (s.writeBytes a v 4).read16 a = v.extractLsb' 0 16 ∧
      (s.writeBytes a v 4).read16 (a + 2) = v.extractLsb' 16 16 ∧
      (s.writeBytes a v 4).read32 a = v)

/-- Program order (R55, the spec's decision D12, log 27): LW right after SW at the same plain, readable address
gives the stored register back. -/
def Obligations.LoadReturnsTheLatestStore : Prop :=
  ∀ (s t : State) (rd rs2 rs1 : RegId) (imm : Word),
    exec (.sw rs2 rs1 imm) s = .next t →
    s.allows .read (s.readReg rs1 + imm).toNat 4 = true →
    s.touchesDevice (s.readReg rs1 + imm).toNat 4 = false →
    ∃ u, exec (.lw rd rs1 imm) t = .next u ∧
      u.readReg rd = if rd = 0#5 then 0#32 else s.readReg rs2

/-- Memories in canonical form that read alike are the same data. -/
def Obligations.CanonicalMemoryIsUnique : Prop :=
  ∀ m m' : Memory, m.wf = true → m'.wf = true → (∀ a, m.get a = m'.get a) → m = m'

/-! The interrupt. -/

/-- R172: what taking the interrupt changes, in full. -/
def Obligations.EntryChangesExactlyThree : Prop :=
  ∀ s : State,
    s.takeInterrupt.ni = true ∧ s.takeInterrupt.mepc = s.pc ∧
    s.takeInterrupt.pc = 0x00000004#32 ∧ SameRegs s s.takeInterrupt ∧
    SameMemory s s.takeInterrupt ∧ SameDevices s s.takeInterrupt ∧ SameInputs s s.takeInterrupt

/-- A request present while an instruction executes in the interruptible mode is taken at its end: the instruction's
own effects are whole, `mepc` holds its `next_pc`, `pc` is 4 (R170 to R174; the mode tested is the one before the
instruction, the spec's decision D15, log 11; the requests are decision D14 in the model's form, log 10). -/
def Obligations.RequestIsTakenAfterTheInstruction : Prop :=
  ∀ (s s1 s2 : State) (w : Word) (i : Instr),
    s.fetch = .ok (w, s1) → decode w = .ok i → exec i s1 = .next s2 →
    ∀ rest, s.irq = true :: rest → s.ni = false →
      ∃ t, step s = .next t ∧ t.ni = true ∧ t.mepc = s2.pc ∧ t.pc = 0x00000004#32 ∧
        SameRegs s2 t ∧ SameMemory s2 t ∧ SameDevices s2 t ∧ t.irq = rest ∧ t.plat = s2.plat

/-- A request is not taken in the non-interruptible mode (R164), and none is taken where there is none: the step is
the instruction alone, and the request is gone (R162: no pending bit). The mode tested is the one before the
instruction (the spec's decision D15, log 11); the requests are decision D14 in the model's form (log 10). -/
def Obligations.NoEntryWhenMaskedOrQuiet : Prop :=
  ∀ (s s1 s2 : State) (w : Word) (i : Instr),
    s.fetch = .ok (w, s1) → decode w = .ok i → exec i s1 = .next s2 →
    (s.ni = true ∨ s.irqNow = false) →
    ∃ t, step s = .next t ∧ t.pc = s2.pc ∧ SameRegs s2 t ∧ SameTrapState s2 t ∧
      SameMemory s2 t ∧ SameDevices s2 t ∧ t.irq = s.irq.tail ∧ t.plat = s2.plat

/-- MRET (R155, R175), from its encoding to its whole effect: `pc` at `mepc`, the non-interruptible mode left,
nothing else changed; and no other instruction changes the mode. That the fields `rs1` and `rd` of its word are 0
is the spec's decision D5 (R73, log 13); an `mepc` that is no multiple of 4 is its decision D7 (log 15, stated in
`MisalignedTargetFaults`). -/
def Obligations.ReturnFromInterrupt : Prop :=
  decode (0b0011000#7 ++ 0b00010#5 ++ 0b00000#5 ++ 0b000#3 ++ 0b00000#5 ++ 0b1110011#7)
    = .ok .mret ∧
  (∀ s : State, s.mepc.toNat % 4 = 0 →
    ∃ t, exec .mret s = .next t ∧ t.pc = s.mepc ∧ t.ni = false ∧ t.mepc = s.mepc ∧
      SameRegs s t ∧ SameMemory s t ∧ SameDevices s t ∧ SameInputs s t) ∧
  (∀ (i : Instr) (s t : State), i ≠ .mret → exec i s = .next t → t.ni = s.ni)

/-- R178 (the spec's decision D15, log 11): a request present while MRET executes in a handler is not taken there,
so an instruction of the resumed program comes first; outside a handler it is taken, and `mepc` keeps its value.
That MRET is the word 0x30200073 is decision D5 (log 13), the premise on `mepc` decision D7 (log 15), the request
D14 (log 10). -/
def Obligations.RequestDuringMret : Prop :=
  ∀ (s s1 : State), s.fetch = .ok (0x30200073#32, s1) → s.irqNow = true → s.mepc.toNat % 4 = 0 →
    ∃ t, step s = .next t ∧ t.mepc = s.mepc ∧ SameRegs s t ∧ SameMemory s t ∧
      (s.ni = true → t.pc = s.mepc ∧ t.ni = false) ∧
      (s.ni = false → t.pc = 0x00000004#32 ∧ t.ni = true)

/-- The interrupted program resumes where it would have continued (R171): an instruction at whose end the interrupt
is taken, then a handler that is MRET alone, end in the state the instruction left, interruptible, with `mepc` the
address resumed at. That MRET is the word 0x30200073 is the spec's decision D5 (log 13), the mode tested its
decision D15 (log 11), the request D14 (log 10). -/
def Obligations.HandlerReturnsWhereItWasTaken : Prop :=
  ∀ (s s1 s2 t t1 : State) (w : Word) (i : Instr),
    s.fetch = .ok (w, s1) → decode w = .ok i → exec i s1 = .next s2 →
    s.irqNow = true → s.ni = false → step s = .next t → t.fetch = .ok (0x30200073#32, t1) →
    ∃ u, step t = .next u ∧ u.pc = s2.pc ∧ u.mepc = s2.pc ∧ u.ni = false ∧
      SameRegs s2 u ∧ SameMemory s2 u

/-- R28: `mepc` is written by the interrupt entry alone, with `next_pc`, and read by MRET alone. -/
def Obligations.MepcOnlyEntryWritesOnlyMretReads : Prop :=
  (∀ (i : Instr) (s t : State), exec i s = .next t → t.mepc = s.mepc) ∧
  (∀ s t : State, step s = .next t → t.mepc = s.mepc ∨
    (t.ni = true ∧ t.pc = 0x00000004#32 ∧
      ∃ s1 s2 w i, s.fetch = .ok (w, s1) ∧ decode w = .ok i ∧ exec i s1 = .next s2 ∧
        t.mepc = s2.pc)) ∧
  (∀ (i : Instr) (s : State) (v : Word), i ≠ .mret →
    exec i { s with mepc := v } = mapNext (fun t => { t with mepc := v }) (exec i s)) ∧
  (∀ (s : State) (v : Word), v.toNat % 4 = 0 →
    ∃ t, exec .mret { s with mepc := v } = .next t ∧ t.pc = v)

/-- The non-interruptible mode over a step (`10_state.md` section 3, R29): only the interrupt entry sets `ni`, only
MRET clears it, and every instruction means the same in both modes. That the one word which clears it is
0x30200073, MRET with `rs1` and `rd` 0, is the spec's decision D5 (R73, log 13); the requests are decision D14 in
the model's form (log 10). -/
def Obligations.NiOnlyEntrySetsOnlyMretClears : Prop :=
  (∀ s t : State, step s = .next t → s.ni = false → t.ni = true →
    s.irqNow = true ∧ t.pc = 0x00000004#32) ∧
  (∀ s t : State, step s = .next t → s.ni = true → t.ni = false →
    ∃ s1, s.fetch = .ok (0x30200073#32, s1) ∧ t.pc = s.mepc) ∧
  (∀ (i : Instr) (s : State) (b : Bool), i ≠ .mret →
    exec i { s with ni := b } = mapNext (fun t => { t with ni := b }) (exec i s)) ∧
  (∀ (s : State) (b : Bool), exec .mret { s with ni := b } = exec .mret s)

/-! Whole-machine rules. -/

/-- R24, R71: an instruction neither reads nor writes a general register that its fields do not name. -/
def Obligations.OnlyNamedRegistersMatter : Prop :=
  ∀ (i : Instr) (s : State) (r : RegId) (v : Word), r ∉ namedRegs i →
    exec i (s.writeReg r v) = mapNext (fun t => t.writeReg r v) (exec i s)

/-- `x0` is hardwired to zero (R21; that a write is discarded is the spec's decision D20, log 29): it reads 0 in
every state, a write to it changes nothing, and a write to another register is read back. -/
def Obligations.X0IsHardwiredToZero : Prop :=
  ∀ (s : State) (v : Word), s.readReg 0#5 = 0x00000000#32 ∧ s.writeReg 0#5 v = s ∧
    ∀ r q : RegId, r ≠ 0#5 → (s.writeReg r v).readReg r = v ∧
      (q ≠ r → (s.writeReg r v).readReg q = s.readReg q)

/-- Every instruction has a meaning: none is refused, in any state, and a step is never refused. The faults an
instruction itself raises are those of data accesses and of targets. R161's list has one more, `UnwrittenRegister`
for a source operand, in a model that chooses to fault: that this model never raises it is its own choice (log 5,
unsafe). -/
def Obligations.EveryInstructionHasAMeaning : Prop :=
  (∀ (i : Instr) (s : State),
    (∃ t, exec i s = .next t) ∨ (∃ a n, exec i s = .fault (.misalignedAccess a n)) ∨
    (∃ a, exec i s = .fault (.misalignedTarget a)) ∨
    (∃ a k, exec i s = .fault (.accessOutsideMap a k))) ∧
  (∀ s : State, (∃ t, step s = .next t) ∨ (∃ f, step s = .fault f))
end

