-- ==== Sys2Proof/Laws/Encoding.lean ====
section
/-! SUPPORT. The fields and the immediates of an encoded word, and the immediates that a format carries whole
(`30_encoding.md` R60 to R67). -/

namespace Sys2Proof

/-! Slices of a concatenation. -/

theorem slice_low {m n : Nat} (a : BitVec m) (b : BitVec n) (s l : Nat) (h : s + l ≤ n) :
    (a ++ b).extractLsb' s l = b.extractLsb' s l := by
  apply BitVec.eq_of_getLsbD_eq
  intro k hk
  have : s + k < n := by omega
  simp [BitVec.getLsbD_append, hk, this]

theorem slice_high {m n : Nat} (a : BitVec m) (b : BitVec n) (s l : Nat) (h : n ≤ s) :
    (a ++ b).extractLsb' s l = a.extractLsb' (s - n) l := by
  apply BitVec.eq_of_getLsbD_eq
  intro k hk
  have : ¬ s + k < n := by omega
  have e : s + k - n = s - n + k := by omega
  simp [BitVec.getLsbD_append, hk, this, e]

theorem slice_all {n : Nat} (a : BitVec n) : a.extractLsb' 0 n = a := by simp

/-- Two neighbouring slices joined. -/
theorem slice_join {n : Nat} (x : BitVec n) (s l m : Nat) :
    x.extractLsb' (s + l) m ++ x.extractLsb' s l = x.extractLsb' s (m + l) := by
  apply BitVec.eq_of_getLsbD_eq
  intro k hk
  simp only [BitVec.getLsbD_append, BitVec.getLsbD_extractLsb']
  by_cases h : k < l
  · simp [h, hk]
  · have e : s + l + (k - l) = s + k := by omega
    simp [h, hk, e, show k - l < m by omega]

/-! Fields of format R. -/

theorem opcode_encodeR (f7 rs2 rs1 f3 rd op) : opcode (encodeR f7 rs2 rs1 f3 rd op) = op :=
  (slice_low _ _ 0 7 (by decide)).trans (slice_all _)

theorem rdField_encodeR (f7 rs2 rs1 f3 rd op) : rdField (encodeR f7 rs2 rs1 f3 rd op) = rd := by
  unfold rdField encodeR
  erw [slice_high _ _ _ _ (by decide), slice_low _ _ _ _ (by decide)]
  exact slice_all _

theorem funct3_encodeR (f7 rs2 rs1 f3 rd op) : funct3 (encodeR f7 rs2 rs1 f3 rd op) = f3 := by
  unfold funct3 encodeR
  erw [slice_high _ _ _ _ (by decide), slice_high _ _ _ _ (by decide),
    slice_low _ _ _ _ (by decide)]
  exact slice_all _

theorem rs1Field_encodeR (f7 rs2 rs1 f3 rd op) :
    rs1Field (encodeR f7 rs2 rs1 f3 rd op) = rs1 := by
  unfold rs1Field encodeR
  erw [slice_high _ _ _ _ (by decide), slice_high _ _ _ _ (by decide),
    slice_high _ _ _ _ (by decide), slice_low _ _ _ _ (by decide)]
  exact slice_all _

theorem rs2Field_encodeR (f7 rs2 rs1 f3 rd op) :
    rs2Field (encodeR f7 rs2 rs1 f3 rd op) = rs2 := by
  unfold rs2Field encodeR
  erw [slice_high _ _ _ _ (by decide), slice_high _ _ _ _ (by decide),
    slice_high _ _ _ _ (by decide), slice_high _ _ _ _ (by decide),
    slice_low _ _ _ _ (by decide)]
  exact slice_all _

theorem funct7_encodeR (f7 rs2 rs1 f3 rd op) : funct7 (encodeR f7 rs2 rs1 f3 rd op) = f7 := by
  unfold funct7 encodeR
  erw [slice_high _ _ _ _ (by decide), slice_high _ _ _ _ (by decide),
    slice_high _ _ _ _ (by decide), slice_high _ _ _ _ (by decide),
    slice_high _ _ _ _ (by decide)]
  exact slice_all _

/-! Fields of format I. -/

theorem opcode_encodeI (imm rs1 f3 rd op) : opcode (encodeI imm rs1 f3 rd op) = op :=
  (slice_low _ _ 0 7 (by decide)).trans (slice_all _)

theorem rdField_encodeI (imm rs1 f3 rd op) : rdField (encodeI imm rs1 f3 rd op) = rd := by
  unfold rdField encodeI
  erw [slice_high _ _ _ _ (by decide), slice_low _ _ _ _ (by decide)]
  exact slice_all _

theorem funct3_encodeI (imm rs1 f3 rd op) : funct3 (encodeI imm rs1 f3 rd op) = f3 := by
  unfold funct3 encodeI
  erw [slice_high _ _ _ _ (by decide), slice_high _ _ _ _ (by decide),
    slice_low _ _ _ _ (by decide)]
  exact slice_all _

theorem rs1Field_encodeI (imm rs1 f3 rd op) : rs1Field (encodeI imm rs1 f3 rd op) = rs1 := by
  unfold rs1Field encodeI
  erw [slice_high _ _ _ _ (by decide), slice_high _ _ _ _ (by decide),
    slice_high _ _ _ _ (by decide), slice_low _ _ _ _ (by decide)]
  exact slice_all _

theorem immI_encodeI (imm rs1 f3 rd op) :
    immI (encodeI imm rs1 f3 rd op) = (imm.extractLsb' 0 12).signExtend 32 := by
  unfold immI encodeI
  congr 1
  erw [slice_high _ _ _ _ (by decide), slice_high _ _ _ _ (by decide),
    slice_high _ _ _ _ (by decide), slice_high _ _ _ _ (by decide)]
  exact slice_all _

/-! Fields of format S. -/

theorem opcode_encodeS (imm rs2 rs1 f3 op) : opcode (encodeS imm rs2 rs1 f3 op) = op :=
  (slice_low _ _ 0 7 (by decide)).trans (slice_all _)

theorem funct3_encodeS (imm rs2 rs1 f3 op) : funct3 (encodeS imm rs2 rs1 f3 op) = f3 := by
  unfold funct3 encodeS
  erw [slice_high _ _ _ _ (by decide), slice_high _ _ _ _ (by decide),
    slice_low _ _ _ _ (by decide)]
  exact slice_all _

theorem rs1Field_encodeS (imm rs2 rs1 f3 op) : rs1Field (encodeS imm rs2 rs1 f3 op) = rs1 := by
  unfold rs1Field encodeS
  erw [slice_high _ _ _ _ (by decide), slice_high _ _ _ _ (by decide),
    slice_high _ _ _ _ (by decide), slice_low _ _ _ _ (by decide)]
  exact slice_all _

theorem rs2Field_encodeS (imm rs2 rs1 f3 op) : rs2Field (encodeS imm rs2 rs1 f3 op) = rs2 := by
  unfold rs2Field encodeS
  erw [slice_high _ _ _ _ (by decide), slice_high _ _ _ _ (by decide),
    slice_high _ _ _ _ (by decide), slice_high _ _ _ _ (by decide),
    slice_low _ _ _ _ (by decide)]
  exact slice_all _

theorem immS_encodeS (imm rs2 rs1 f3 op) :
    immS (encodeS imm rs2 rs1 f3 op) = (imm.extractLsb' 0 12).signExtend 32 := by
  have hi : (encodeS imm rs2 rs1 f3 op).extractLsb' 25 7 = imm.extractLsb' 5 7 := by
    unfold encodeS
    erw [slice_high _ _ _ _ (by decide), slice_high _ _ _ _ (by decide),
      slice_high _ _ _ _ (by decide), slice_high _ _ _ _ (by decide),
      slice_high _ _ _ _ (by decide)]
    exact slice_all _
  have lo : (encodeS imm rs2 rs1 f3 op).extractLsb' 7 5 = imm.extractLsb' 0 5 := by
    unfold encodeS
    erw [slice_high _ _ _ _ (by decide), slice_low _ _ _ _ (by decide)]
    exact slice_all _
  unfold immS
  rw [hi, lo]
  exact congrArg _ (slice_join imm 0 5 7)

/-! Fields of format B. -/

theorem opcode_encodeB (imm rs2 rs1 f3 op) : opcode (encodeB imm rs2 rs1 f3 op) = op :=
  (slice_low _ _ 0 7 (by decide)).trans (slice_all _)

theorem funct3_encodeB (imm rs2 rs1 f3 op) : funct3 (encodeB imm rs2 rs1 f3 op) = f3 := by
  unfold funct3 encodeB
  erw [slice_high _ _ _ _ (by decide), slice_high _ _ _ _ (by decide),
    slice_high _ _ _ _ (by decide), slice_low _ _ _ _ (by decide)]
  exact slice_all _

theorem rs1Field_encodeB (imm rs2 rs1 f3 op) : rs1Field (encodeB imm rs2 rs1 f3 op) = rs1 := by
  unfold rs1Field encodeB
  erw [slice_high _ _ _ _ (by decide), slice_high _ _ _ _ (by decide),
    slice_high _ _ _ _ (by decide), slice_high _ _ _ _ (by decide),
    slice_low _ _ _ _ (by decide)]
  exact slice_all _

theorem rs2Field_encodeB (imm rs2 rs1 f3 op) : rs2Field (encodeB imm rs2 rs1 f3 op) = rs2 := by
  unfold rs2Field encodeB
  erw [slice_high _ _ _ _ (by decide), slice_high _ _ _ _ (by decide),
    slice_high _ _ _ _ (by decide), slice_high _ _ _ _ (by decide),
    slice_high _ _ _ _ (by decide), slice_low _ _ _ _ (by decide)]
  exact slice_all _

/-- The B-immediate of an encoded word: bits 12 to 1 of the immediate, sign-extended. -/
theorem immB_encodeB (imm rs2 rs1 f3 op) :
    immB (encodeB imm rs2 rs1 f3 op) =
      (imm.extractLsb' 1 12 ++ 0#1 : BitVec 13).signExtend 32 := by
  have b12 : (encodeB imm rs2 rs1 f3 op).extractLsb' 31 1 = imm.extractLsb' 12 1 := by
    unfold encodeB
    erw [slice_high _ _ _ _ (by decide), slice_high _ _ _ _ (by decide),
      slice_high _ _ _ _ (by decide), slice_high _ _ _ _ (by decide),
      slice_high _ _ _ _ (by decide), slice_high _ _ _ _ (by decide),
      slice_high _ _ _ _ (by decide)]
    exact slice_all _
  have b10 : (encodeB imm rs2 rs1 f3 op).extractLsb' 25 6 = imm.extractLsb' 5 6 := by
    unfold encodeB
    erw [slice_high _ _ _ _ (by decide), slice_high _ _ _ _ (by decide),
      slice_high _ _ _ _ (by decide), slice_high _ _ _ _ (by decide),
      slice_high _ _ _ _ (by decide), slice_high _ _ _ _ (by decide),
      slice_low _ _ _ _ (by decide)]
    exact slice_all _
  have b4 : (encodeB imm rs2 rs1 f3 op).extractLsb' 8 4 = imm.extractLsb' 1 4 := by
    unfold encodeB
    erw [slice_high _ _ _ _ (by decide), slice_high _ _ _ _ (by decide),
      slice_low _ _ _ _ (by decide)]
    exact slice_all _
  have b11 : (encodeB imm rs2 rs1 f3 op).extractLsb' 7 1 = imm.extractLsb' 11 1 := by
    unfold encodeB
    erw [slice_high _ _ _ _ (by decide), slice_low _ _ _ _ (by decide)]
    exact slice_all _
  have j : imm.extractLsb' 12 1 ++ imm.extractLsb' 11 1 ++ imm.extractLsb' 5 6
      ++ imm.extractLsb' 1 4 = imm.extractLsb' 1 12 := by
    erw [slice_join imm 11 1 1, slice_join imm 5 6 2, slice_join imm 1 4 8]
  unfold immB
  rw [b12, b10, b4, b11, j]

/-! Fields of format U. -/

theorem opcode_encodeU (imm rd op) : opcode (encodeU imm rd op) = op :=
  (slice_low _ _ 0 7 (by decide)).trans (slice_all _)

theorem rdField_encodeU (imm rd op) : rdField (encodeU imm rd op) = rd := by
  unfold rdField encodeU
  erw [slice_high _ _ _ _ (by decide), slice_low _ _ _ _ (by decide)]
  exact slice_all _

theorem immU_encodeU (imm rd op) :
    immU (encodeU imm rd op) = imm.extractLsb' 12 20 ++ 0#12 := by
  have h : (encodeU imm rd op).extractLsb' 12 20 = imm.extractLsb' 12 20 := by
    unfold encodeU
    erw [slice_high _ _ _ _ (by decide), slice_high _ _ _ _ (by decide)]
    exact slice_all _
  unfold immU
  rw [h]

/-! Fields of format J. -/

theorem opcode_encodeJ (imm rd op) : opcode (encodeJ imm rd op) = op :=
  (slice_low _ _ 0 7 (by decide)).trans (slice_all _)

theorem rdField_encodeJ (imm rd op) : rdField (encodeJ imm rd op) = rd := by
  unfold rdField encodeJ
  erw [slice_high _ _ _ _ (by decide), slice_low _ _ _ _ (by decide)]
  exact slice_all _

/-- The J-immediate of an encoded word: bits 20 to 1 of the immediate, sign-extended. -/
theorem immJ_encodeJ (imm rd op) :
    immJ (encodeJ imm rd op) = (imm.extractLsb' 1 20 ++ 0#1 : BitVec 21).signExtend 32 := by
  have b20 : (encodeJ imm rd op).extractLsb' 31 1 = imm.extractLsb' 20 1 := by
    unfold encodeJ
    erw [slice_high _ _ _ _ (by decide), slice_high _ _ _ _ (by decide),
      slice_high _ _ _ _ (by decide), slice_high _ _ _ _ (by decide),
      slice_high _ _ _ _ (by decide), slice_high _ _ _ _ (by decide)]
    exact slice_all _
  have b10 : (encodeJ imm rd op).extractLsb' 25 6 = imm.extractLsb' 5 6 := by
    unfold encodeJ
    erw [slice_high _ _ _ _ (by decide), slice_high _ _ _ _ (by decide),
      slice_high _ _ _ _ (by decide), slice_high _ _ _ _ (by decide),
      slice_high _ _ _ _ (by decide), slice_low _ _ _ _ (by decide)]
    exact slice_all _
  have b4 : (encodeJ imm rd op).extractLsb' 21 4 = imm.extractLsb' 1 4 := by
    unfold encodeJ
    erw [slice_high _ _ _ _ (by decide), slice_high _ _ _ _ (by decide),
      slice_high _ _ _ _ (by decide), slice_high _ _ _ _ (by decide),
      slice_low _ _ _ _ (by decide)]
    exact slice_all _
  have b11 : (encodeJ imm rd op).extractLsb' 20 1 = imm.extractLsb' 11 1 := by
    unfold encodeJ
    erw [slice_high _ _ _ _ (by decide), slice_high _ _ _ _ (by decide),
      slice_high _ _ _ _ (by decide), slice_low _ _ _ _ (by decide)]
    exact slice_all _
  have b19 : (encodeJ imm rd op).extractLsb' 12 8 = imm.extractLsb' 12 8 := by
    unfold encodeJ
    erw [slice_high _ _ _ _ (by decide), slice_high _ _ _ _ (by decide),
      slice_low _ _ _ _ (by decide)]
    exact slice_all _
  have j : imm.extractLsb' 20 1 ++ imm.extractLsb' 12 8 ++ imm.extractLsb' 11 1
      ++ imm.extractLsb' 5 6 ++ imm.extractLsb' 1 4 = imm.extractLsb' 1 20 := by
    erw [slice_join imm 12 8 1, slice_join imm 11 1 9, slice_join imm 5 6 10,
      slice_join imm 1 4 16]
  unfold immJ
  rw [b20, b10, b4, b11, b19, j]

/-! Immediates that a format carries whole. -/

/-- Sign extension of its low `k` bits gives a number of `k` bits back. -/
theorem signExtend_slice (imm : Word) (k : Nat) (h0 : 0 < k) (hk : k ≤ 32)
    (h1 : -2 ^ (k - 1) ≤ imm.toInt) (h2 : imm.toInt < 2 ^ (k - 1)) :
    (imm.extractLsb' 0 k).signExtend 32 = imm := by
  apply BitVec.eq_of_toInt_eq
  rw [BitVec.toInt_signExtend_of_le hk]
  have e : imm.extractLsb' 0 k = BitVec.ofInt k imm.toInt := by
    apply BitVec.eq_of_toNat_eq
    rw [BitVec.extractLsb'_toNat, BitVec.toNat_ofInt, Nat.shiftRight_zero, BitVec.toInt_eq_toNat_cond]
    split
    · rfl
    · have hd : ((2 ^ k : Nat) : Int) ∣ ((2 ^ 32 : Nat) : Int) :=
        Int.natCast_dvd_natCast.2 (Nat.pow_dvd_pow 2 hk)
      rw [Int.sub_emod, Int.emod_eq_zero_of_dvd hd, Int.sub_zero, Int.emod_emod, ← Int.natCast_emod]
      rfl
  rw [e, BitVec.toInt_ofInt]
  have hp : (2 : Int) ^ k = 2 * 2 ^ (k - 1) := by
    obtain ⟨m, rfl⟩ : ∃ m, k = m + 1 := ⟨k - 1, by omega⟩
    simp [pow_succ, mul_comm]
  apply Int.bmod_eq_of_le
  · push_cast; omega
  · push_cast; omega

/-- The I- and S-immediates carry -2048 to 2047 whole (R63, R64). -/
theorem imm12_carried {imm : Word} (h : immFits12 imm = true) :
    (imm.extractLsb' 0 12).signExtend 32 = imm := by
  simp only [immFits12, decide_eq_true_eq] at h
  exact signExtend_slice imm 12 (by decide) (by decide) (by omega) (by omega)

/-- The bits above bit 0 of an even value, with a 0 below. -/
theorem slice_even (imm : Word) (k : Nat) (h : imm.getLsbD 0 = false) :
    imm.extractLsb' 1 k ++ 0#1 = imm.extractLsb' 0 (k + 1) := by
  have z : (0#1 : BitVec 1) = imm.extractLsb' 0 1 := by
    apply BitVec.eq_of_getLsbD_eq
    intro i hi
    obtain rfl : i = 0 := by omega
    rw [BitVec.getLsbD_extractLsb', Nat.add_zero, h]
    rfl
  rw [z]
  exact slice_join imm 0 1 k

theorem even_bit0 {imm : Word} (h : imm.toInt % 2 = 0) : imm.getLsbD 0 = false := by
  have := BitVec.toInt_eq_toNat_cond imm
  have e : imm.toNat % 2 = 0 := by split at this <;> omega
  simp [BitVec.getLsbD, Nat.testBit_zero, e]

/-- The B-immediate carries the even numbers -4096 to 4094 whole (R65). -/
theorem immB_carried {imm : Word} (h : immFitsB imm = true) :
    (imm.extractLsb' 1 12 ++ 0#1 : BitVec 13).signExtend 32 = imm := by
  simp only [immFitsB, decide_eq_true_eq] at h
  rw [slice_even imm 12 (even_bit0 h.2.2)]
  exact signExtend_slice imm 13 (by decide) (by decide) (by omega) (by omega)

/-- The J-immediate carries the even numbers -1048576 to 1048574 whole (R67). -/
theorem immJ_carried {imm : Word} (h : immFitsJ imm = true) :
    (imm.extractLsb' 1 20 ++ 0#1 : BitVec 21).signExtend 32 = imm := by
  simp only [immFitsJ, decide_eq_true_eq] at h
  rw [slice_even imm 20 (even_bit0 h.2.2)]
  exact signExtend_slice imm 21 (by decide) (by decide) (by omega) (by omega)

/-- The U-immediate carries the multiples of 4096 whole (R66). -/
theorem immU_carried {imm : Word} (h : immFitsU imm = true) :
    (imm.extractLsb' 12 20 ++ 0#12 : Word) = imm := by
  simp only [immFitsU, decide_eq_true_eq] at h
  have z : (0#12 : BitVec 12) = imm.extractLsb' 0 12 := by
    apply BitVec.eq_of_toNat_eq
    simp [BitVec.extractLsb'_toNat, h]
  rw [z]
  exact (slice_join imm 0 12 20).trans (slice_all imm)

/-- A sign-extended immediate carries the bits it was made of. -/
theorem slice_signExtend {n : Nat} (x : BitVec n) (s l : Nat) (h : s + l ≤ n) (hn : n ≤ 32) :
    (x.signExtend 32).extractLsb' s l = x.extractLsb' s l := by
  apply BitVec.eq_of_getLsbD_eq
  intro k hk
  simp only [BitVec.getLsbD_extractLsb', BitVec.getLsbD_signExtend, hk, show s + k < 32 by omega,
    show s + k < n by omega, decide_true, Bool.true_and, if_true]

/-! Encoding an immediate that is given by its fields (R61, R62). -/

theorem encodeI_fields (imm : BitVec 12) (rs1 f3 rd op) :
    encodeI (imm.signExtend 32) rs1 f3 rd op = imm ++ rs1 ++ f3 ++ rd ++ op := by
  unfold encodeI
  rw [slice_signExtend _ _ _ (by decide) (by decide), slice_all]

theorem encodeS_fields (hi : BitVec 7) (lo : BitVec 5) (rs2 rs1 f3 op) :
    encodeS ((hi ++ lo : BitVec 12).signExtend 32) rs2 rs1 f3 op
      = hi ++ rs2 ++ rs1 ++ f3 ++ lo ++ op := by
  unfold encodeS
  rw [slice_signExtend _ 5 7 (by decide) (by decide), slice_signExtend _ 0 5 (by decide) (by decide),
    slice_high _ _ _ _ (by decide), slice_low _ _ _ _ (by decide), slice_all, slice_all]

theorem encodeB_fields (b12 b11 : BitVec 1) (b10 : BitVec 6) (b4 : BitVec 4) (rs2 rs1 f3 op) :
    encodeB ((b12 ++ b11 ++ b10 ++ b4 ++ 0#1 : BitVec 13).signExtend 32) rs2 rs1 f3 op
      = b12 ++ b10 ++ rs2 ++ rs1 ++ f3 ++ b4 ++ b11 ++ op := by
  have e12 : (b12 ++ b11 ++ b10 ++ b4 ++ 0#1 : BitVec 13).extractLsb' 12 1 = b12 := by
    erw [slice_high _ _ _ _ (by decide), slice_high _ _ _ _ (by decide),
      slice_high _ _ _ _ (by decide), slice_high _ _ _ _ (by decide)]
    exact slice_all _
  have e10 : (b12 ++ b11 ++ b10 ++ b4 ++ 0#1 : BitVec 13).extractLsb' 5 6 = b10 := by
    erw [slice_high _ _ _ _ (by decide), slice_high _ _ _ _ (by decide),
      slice_low _ _ _ _ (by decide)]
    exact slice_all _
  have e4 : (b12 ++ b11 ++ b10 ++ b4 ++ 0#1 : BitVec 13).extractLsb' 1 4 = b4 := by
    erw [slice_high _ _ _ _ (by decide), slice_low _ _ _ _ (by decide)]
    exact slice_all _
  have e11 : (b12 ++ b11 ++ b10 ++ b4 ++ 0#1 : BitVec 13).extractLsb' 11 1 = b11 := by
    erw [slice_high _ _ _ _ (by decide), slice_high _ _ _ _ (by decide),
      slice_high _ _ _ _ (by decide), slice_low _ _ _ _ (by decide)]
    exact slice_all _
  unfold encodeB
  rw [slice_signExtend _ 12 1 (by decide) (by decide), slice_signExtend _ 5 6 (by decide) (by decide),
    slice_signExtend _ 1 4 (by decide) (by decide), slice_signExtend _ 11 1 (by decide) (by decide),
    e12, e10, e4, e11]

theorem encodeU_fields (imm : BitVec 20) (rd op) :
    encodeU (imm ++ 0#12) rd op = imm ++ rd ++ op := by
  have e : (imm ++ 0#12 : Word).extractLsb' 12 20 = imm := by
    erw [slice_high _ _ _ _ (by decide)]
    exact slice_all _
  unfold encodeU
  rw [e]

theorem encodeJ_fields (b20 b11 : BitVec 1) (b10 : BitVec 10) (b19 : BitVec 8) (rd op) :
    encodeJ ((b20 ++ b19 ++ b11 ++ b10 ++ 0#1 : BitVec 21).signExtend 32) rd op
      = b20 ++ b10 ++ b11 ++ b19 ++ rd ++ op := by
  have e20 : (b20 ++ b19 ++ b11 ++ b10 ++ 0#1 : BitVec 21).extractLsb' 20 1 = b20 := by
    erw [slice_high _ _ _ _ (by decide), slice_high _ _ _ _ (by decide),
      slice_high _ _ _ _ (by decide), slice_high _ _ _ _ (by decide)]
    exact slice_all _
  have e19 : (b20 ++ b19 ++ b11 ++ b10 ++ 0#1 : BitVec 21).extractLsb' 12 8 = b19 := by
    erw [slice_high _ _ _ _ (by decide), slice_high _ _ _ _ (by decide),
      slice_high _ _ _ _ (by decide), slice_low _ _ _ _ (by decide)]
    exact slice_all _
  have e11 : (b20 ++ b19 ++ b11 ++ b10 ++ 0#1 : BitVec 21).extractLsb' 11 1 = b11 := by
    erw [slice_high _ _ _ _ (by decide), slice_high _ _ _ _ (by decide),
      slice_low _ _ _ _ (by decide)]
    exact slice_all _
  have e5 : (b20 ++ b19 ++ b11 ++ b10 ++ 0#1 : BitVec 21).extractLsb' 5 6 = b10.extractLsb' 4 6 := by
    erw [slice_high _ _ _ _ (by decide), slice_low _ _ _ _ (by decide)]
  have e1 : (b20 ++ b19 ++ b11 ++ b10 ++ 0#1 : BitVec 21).extractLsb' 1 4 = b10.extractLsb' 0 4 := by
    erw [slice_high _ _ _ _ (by decide), slice_low _ _ _ _ (by decide)]
  have j : b20 ++ b10.extractLsb' 4 6 ++ b10.extractLsb' 0 4 = b20 ++ b10 := by
    have : b10.extractLsb' 4 6 ++ b10.extractLsb' 0 4 = b10 :=
      (slice_join b10 0 4 6).trans (slice_all b10)
    rw [← this, BitVec.append_assoc]
    simp [this]
  unfold encodeJ
  rw [slice_signExtend _ 20 1 (by decide) (by decide), slice_signExtend _ 5 6 (by decide) (by decide),
    slice_signExtend _ 1 4 (by decide) (by decide), slice_signExtend _ 11 1 (by decide) (by decide),
    slice_signExtend _ 12 8 (by decide) (by decide), e20, e19, e11, e5, e1, j]

/-! Every value of a format's immediate field is admitted. -/

theorem immFits12_fields (imm : BitVec 12) : immFits12 (imm.signExtend 32) = true := by
  have h1 := BitVec.le_toInt imm
  have h2 := BitVec.toInt_lt (x := imm)
  simp only [immFits12, BitVec.toInt_signExtend_of_le (show 12 ≤ 32 by decide), decide_eq_true_eq]
  simp at h1 h2
  omega

theorem immFitsB_fields (x : BitVec 12) :
    immFitsB ((x ++ 0#1 : BitVec 13).signExtend 32) = true := by
  have h1 := BitVec.le_toInt (x ++ 0#1)
  have h2 := BitVec.toInt_lt (x := x ++ 0#1)
  have h3 : (x ++ 0#1).toNat = x.toNat * 2 := by
    rw [BitVec.toNat_append]; simp [Nat.shiftLeft_eq]
  have h4 : (x ++ 0#1).toInt % 2 = 0 := by
    rw [BitVec.toInt_eq_toNat_cond, h3]
    split <;> omega
  simp only [immFitsB, BitVec.toInt_signExtend_of_le (show 13 ≤ 32 by decide), decide_eq_true_eq]
  simp at h1 h2
  omega

theorem immFitsJ_fields (x : BitVec 20) :
    immFitsJ ((x ++ 0#1 : BitVec 21).signExtend 32) = true := by
  have h1 := BitVec.le_toInt (x ++ 0#1)
  have h2 := BitVec.toInt_lt (x := x ++ 0#1)
  have h3 : (x ++ 0#1).toNat = x.toNat * 2 := by
    rw [BitVec.toNat_append]; simp [Nat.shiftLeft_eq]
  have h4 : (x ++ 0#1).toInt % 2 = 0 := by
    rw [BitVec.toInt_eq_toNat_cond, h3]
    split <;> omega
  simp only [immFitsJ, BitVec.toInt_signExtend_of_le (show 21 ≤ 32 by decide), decide_eq_true_eq]
  simp at h1 h2
  omega

theorem upper_toNat (imm : BitVec 20) : (imm ++ 0#12 : Word).toNat = imm.toNat * 4096 := by
  erw [BitVec.toNat_append]
  simp [Nat.shiftLeft_eq]

theorem immFitsU_fields (imm : BitVec 20) : immFitsU (imm ++ 0#12) = true := by
  simp only [immFitsU, upper_toNat, decide_eq_true_eq]
  omega

/-! A word is put together again from its fields. -/

theorem word_slices (w : Word) : w.extractLsb' 25 7 ++ rs2Field w ++ rs1Field w ++ funct3 w ++ rdField w
    ++ opcode w = w := by
  unfold rs2Field rs1Field funct3 rdField opcode
  erw [slice_join w 20 5 7, slice_join w 15 5 12, slice_join w 12 3 17, slice_join w 7 5 20,
    slice_join w 0 7 25]
  exact slice_all w

theorem encodeR_word (w : Word) :
    encodeR (funct7 w) (rs2Field w) (rs1Field w) (funct3 w) (rdField w) (opcode w) = w :=
  word_slices w

theorem encodeI_word (w : Word) :
    encodeI (immI w) (rs1Field w) (funct3 w) (rdField w) (opcode w) = w := by
  have j : w.extractLsb' 20 12 = w.extractLsb' 25 7 ++ rs2Field w := (slice_join w 20 5 7).symm
  unfold immI
  rw [encodeI_fields, j]
  exact word_slices w

theorem encodeS_word (w : Word) :
    encodeS (immS w) (rs2Field w) (rs1Field w) (funct3 w) (opcode w) = w := by
  unfold immS
  rw [encodeS_fields]
  exact word_slices w

theorem encodeB_word (w : Word) :
    encodeB (immB w) (rs2Field w) (rs1Field w) (funct3 w) (opcode w) = w := by
  unfold immB
  rw [encodeB_fields]
  unfold rs2Field rs1Field funct3 opcode
  erw [slice_join w 25 6 1, slice_join w 20 5 7, slice_join w 15 5 12, slice_join w 12 3 17,
    slice_join w 8 4 20, slice_join w 7 1 24, slice_join w 0 7 25]
  exact slice_all w

theorem encodeU_word (w : Word) : encodeU (immU w) (rdField w) (opcode w) = w := by
  unfold immU
  rw [encodeU_fields]
  unfold rdField opcode
  erw [slice_join w 7 5 20, slice_join w 0 7 25]
  exact slice_all w

theorem encodeJ_word (w : Word) : encodeJ (immJ w) (rdField w) (opcode w) = w := by
  have j : immJ w = (w.extractLsb' 31 1 ++ w.extractLsb' 12 8 ++ w.extractLsb' 20 1
      ++ w.extractLsb' 21 10 ++ 0#1 : BitVec 21).signExtend 32 := by
    have e : ∀ p : BitVec 10, p ++ w.extractLsb' 25 6 ++ w.extractLsb' 21 4
        = p ++ w.extractLsb' 21 10 := fun p => by
      rw [← slice_join w 21 4 6, BitVec.append_assoc]
      simp
    unfold immJ
    rw [e]
  rw [j, encodeJ_fields]
  unfold rdField opcode
  erw [slice_join w 21 10 1, slice_join w 20 1 11, slice_join w 12 8 12, slice_join w 7 5 20,
    slice_join w 0 7 25]
  exact slice_all w

theorem immI_fits (w : Word) : immFits12 (immI w) = true := immFits12_fields _
theorem immS_fits (w : Word) : immFits12 (immS w) = true := immFits12_fields _
theorem immB_fits (w : Word) : immFitsB (immB w) = true := immFitsB_fields _
theorem immU_fits (w : Word) : immFitsU (immU w) = true := immFitsU_fields _
theorem immJ_fits (w : Word) : immFitsJ (immJ w) = true := immFitsJ_fields _

/-! The masks of R72 in terms of the selecting fields. -/

theorem mask_opcode (w : Word) : w &&& 0x0000007F#32 = (opcode w).setWidth 32 := by
  apply BitVec.eq_of_getLsbD_eq
  intro i hi
  interval_cases i <;> simp [opcode]

theorem mask_funct3 (w : Word) :
    w &&& 0x0000707F#32 = (funct3 w).setWidth 32 <<< 12 ||| (opcode w).setWidth 32 := by
  apply BitVec.eq_of_getLsbD_eq
  intro i hi
  interval_cases i <;> simp [opcode, funct3]

theorem mask_funct7 (w : Word) :
    w &&& 0xFE00707F#32 = (funct7 w).setWidth 32 <<< 25 ||| (funct3 w).setWidth 32 <<< 12
      ||| (opcode w).setWidth 32 := by
  apply BitVec.eq_of_getLsbD_eq
  intro i hi
  interval_cases i <;> simp [opcode, funct3, funct7]

/-- A word that matches a row's mask has the row's selecting fields. -/
theorem opcode_of_mask {w p : Word} (h : w &&& 0x0000007F#32 = p) : opcode w = opcode p := by
  subst h
  unfold opcode
  apply BitVec.eq_of_getLsbD_eq
  intro i hi
  interval_cases i <;> simp

theorem funct3_of_mask {w p : Word} (h : w &&& 0x0000707F#32 = p) :
    opcode w = opcode p ∧ funct3 w = funct3 p := by
  subst h
  unfold opcode funct3
  constructor <;> (apply BitVec.eq_of_getLsbD_eq; intro i hi; interval_cases i <;> simp)

theorem funct7_of_mask {w p : Word} (h : w &&& 0xFE00707F#32 = p) :
    opcode w = opcode p ∧ funct3 w = funct3 p ∧ funct7 w = funct7 p := by
  subst h
  unfold opcode funct3 funct7
  refine ⟨?_, ?_, ?_⟩ <;>
    (apply BitVec.eq_of_getLsbD_eq; intro i hi; interval_cases i <;> simp)

theorem mask_all (w : Word) : w &&& 0xFFFFFFFF#32 = w := BitVec.and_allOnes

end Sys2Proof
end

