-- ==== Sys2Proof/Laws/Memory.lean ====
section
/-! SUPPORT. Memory and address sets: read after write, and the canonical form is kept. -/

namespace Sys2Proof.Machine

/-! Memory. -/

theorem Memory.get_set (m : Memory) (a x : Nat) (b : Byte) :
    (m.set a b).get x = if x = a then some b else m.get x := by
  induction m with
  | nil =>
    by_cases h : a = x
    · simp [Memory.set, Memory.get, h]
    · simp [Memory.set, Memory.get, h, Ne.symm h]
  | cons c m ih =>
    obtain ⟨k, v⟩ := c
    simp only [Memory.set]
    split
    · by_cases h : a = x
      · simp [Memory.get, h]
      · simp [Memory.get, h, Ne.symm h]
    · split
      · next h =>
        subst h
        by_cases h : a = x
        · simp [Memory.get, h]
        · simp [Memory.get, h, Ne.symm h]
      · next hk =>
        by_cases h : k = x
        · have : x ≠ a := fun e => hk (e.symm.trans h.symm)
          simp [Memory.get, h, this]
        · simp [Memory.get, h, ih]

theorem Memory.get_set_same (m : Memory) (a : Nat) (b : Byte) : (m.set a b).get a = some b := by
  simp [Memory.get_set]

theorem Memory.get_set_other (m : Memory) (a x : Nat) (b : Byte) (h : x ≠ a) :
    (m.set a b).get x = m.get x := by simp [Memory.get_set, h]

theorem Memory.wfFrom_mono {lo lo' : Nat} (h : lo' ≤ lo) {m : Memory} (hm : m.wfFrom lo = true) :
    m.wfFrom lo' = true := by
  cases m with
  | nil => rfl
  | cons c m =>
    obtain ⟨k, v⟩ := c
    simp only [Memory.wfFrom, Bool.and_eq_true, decide_eq_true_eq] at hm ⊢
    exact ⟨⟨h.trans hm.1.1, hm.1.2⟩, hm.2⟩

theorem Memory.wfFrom_set {lo : Nat} {m : Memory} {a : Nat} (b : Byte)
    (hm : m.wfFrom lo = true) (hlo : lo ≤ a) (ha : a < 4294967296) :
    (m.set a b).wfFrom lo = true := by
  induction m generalizing lo with
  | nil => simp [Memory.set, Memory.wfFrom, hlo, ha]
  | cons c m ih =>
    obtain ⟨k, v⟩ := c
    simp only [Memory.wfFrom, Bool.and_eq_true, decide_eq_true_eq] at hm
    simp only [Memory.set]
    split
    · next h =>
      simp only [Memory.wfFrom, Bool.and_eq_true, decide_eq_true_eq]
      exact ⟨⟨hlo, ha⟩, ⟨h, hm.1.2⟩, hm.2⟩
    · split
      · next h =>
        subst h
        simp only [Memory.wfFrom, Bool.and_eq_true, decide_eq_true_eq]
        exact hm
      · next h1 h2 =>
        simp only [Memory.wfFrom, Bool.and_eq_true, decide_eq_true_eq]
        exact ⟨hm.1, ih hm.2 (by omega)⟩

/-- A write keeps the canonical form. -/
theorem Memory.set_wf {m : Memory} {a : Nat} (b : Byte) (hm : m.wf = true) (ha : a < 4294967296) :
    (m.set a b).wf = true := Memory.wfFrom_set b hm (Nat.zero_le a) ha

/-- Nothing is listed below the bound of the canonical form. -/
theorem Memory.get_below {lo : Nat} {m : Memory} (hm : m.wfFrom lo = true) {a : Nat} (h : a < lo) :
    m.get a = none := by
  induction m generalizing lo with
  | nil => rfl
  | cons c m ih =>
    obtain ⟨k, v⟩ := c
    simp only [Memory.wfFrom, Bool.and_eq_true, decide_eq_true_eq] at hm
    have : k ≠ a := by omega
    simp only [Memory.get, this, if_false]
    exact ih hm.2 (by omega)

/-! Sets of addresses. -/

theorem AddrSet.has_add (s : AddrSet) (a x : Nat) :
    AddrSet.has (AddrSet.add s a) x = (decide (a = x) || AddrSet.has s x) := by
  induction s with
  | nil => simp [AddrSet.add, AddrSet.has]
  | cons k s ih =>
    simp only [AddrSet.add]
    split
    · simp [AddrSet.has]
    · split
      · next h => subst h; simp [AddrSet.has]
      · simp [AddrSet.has, ih, Bool.or_left_comm]

theorem AddrSet.has_remove (s : AddrSet) (a x : Nat) :
    AddrSet.has (AddrSet.remove s a) x = (!decide (a = x) && AddrSet.has s x) := by
  induction s with
  | nil => simp [AddrSet.remove, AddrSet.has]
  | cons k s ih =>
    simp only [AddrSet.remove]
    split
    · next h =>
      subst h
      rw [ih]
      by_cases hx : k = x <;> simp [AddrSet.has, hx]
    · next h =>
      by_cases hx : a = x
      · subst hx; simp [AddrSet.has, ih, h]
      · simp [AddrSet.has, ih, hx]

theorem AddrSet.wfFrom_mono {lo lo' : Nat} (h : lo' ≤ lo) {s : AddrSet}
    (hs : AddrSet.wfFrom lo s = true) : AddrSet.wfFrom lo' s = true := by
  cases s with
  | nil => rfl
  | cons k s =>
    simp only [AddrSet.wfFrom, Bool.and_eq_true, decide_eq_true_eq] at hs ⊢
    exact ⟨⟨h.trans hs.1.1, hs.1.2⟩, hs.2⟩

theorem AddrSet.wfFrom_add {lo : Nat} {s : AddrSet} {a : Nat} (hs : AddrSet.wfFrom lo s = true)
    (hlo : lo ≤ a) (ha : a < 4294967296) : AddrSet.wfFrom lo (AddrSet.add s a) = true := by
  induction s generalizing lo with
  | nil => simp [AddrSet.add, AddrSet.wfFrom, hlo, ha]
  | cons k s ih =>
    simp only [AddrSet.wfFrom, Bool.and_eq_true, decide_eq_true_eq] at hs
    simp only [AddrSet.add]
    split
    · next h =>
      simp only [AddrSet.wfFrom, Bool.and_eq_true, decide_eq_true_eq]
      exact ⟨⟨hlo, ha⟩, ⟨h, hs.1.2⟩, hs.2⟩
    · split
      · simp only [AddrSet.wfFrom, Bool.and_eq_true, decide_eq_true_eq]
        exact hs
      · simp only [AddrSet.wfFrom, Bool.and_eq_true, decide_eq_true_eq]
        exact ⟨hs.1, ih hs.2 (by omega)⟩

/-- Adding an address keeps the canonical form. -/
theorem AddrSet.add_wf {s : AddrSet} {a : Nat} (hs : AddrSet.wf s = true) (ha : a < 4294967296) :
    AddrSet.wf (AddrSet.add s a) = true := AddrSet.wfFrom_add hs (Nat.zero_le a) ha

theorem AddrSet.wfFrom_remove {lo : Nat} {s : AddrSet} (a : Nat)
    (hs : AddrSet.wfFrom lo s = true) : AddrSet.wfFrom lo (AddrSet.remove s a) = true := by
  induction s generalizing lo with
  | nil => rfl
  | cons k s ih =>
    simp only [AddrSet.wfFrom, Bool.and_eq_true, decide_eq_true_eq] at hs
    simp only [AddrSet.remove]
    split
    · exact ih (AddrSet.wfFrom_mono (by omega) hs.2)
    · simp only [AddrSet.wfFrom, Bool.and_eq_true, decide_eq_true_eq]
      exact ⟨hs.1, ih hs.2⟩

/-- Removing an address keeps the canonical form. -/
theorem AddrSet.remove_wf {s : AddrSet} (a : Nat) (hs : AddrSet.wf s = true) :
    AddrSet.wf (AddrSet.remove s a) = true := AddrSet.wfFrom_remove a hs

/-- The memory right after reset is in canonical form. -/
theorem reset_mem_wf : State.reset.mem.wf = true := rfl

end Sys2Proof.Machine
end

