-- ==== Sys2Proof/Laws/State.lean ====
section
/-! SUPPORT. The small lemmas of the state's updates: one per field per update. -/

namespace Sys2Proof.Machine

variable (s : State)

/-! `setPc`, `advance`. -/
@[simp] theorem State.setPc_pc (t : Word) : (s.setPc t).pc = t := rfl
@[simp] theorem State.setPc_regs (t : Word) : (s.setPc t).regs = s.regs := rfl
@[simp] theorem State.setPc_mepc (t : Word) : (s.setPc t).mepc = s.mepc := rfl
@[simp] theorem State.setPc_ni (t : Word) : (s.setPc t).ni = s.ni := rfl
@[simp] theorem State.setPc_mem (t : Word) : (s.setPc t).mem = s.mem := rfl
@[simp] theorem State.setPc_stored (t : Word) : (s.setPc t).stored = s.stored := rfl
@[simp] theorem State.setPc_events (t : Word) : (s.setPc t).events = s.events := rfl
@[simp] theorem State.setPc_draws (t : Word) : (s.setPc t).draws = s.draws := rfl
@[simp] theorem State.setPc_irq (t : Word) : (s.setPc t).irq = s.irq := rfl
@[simp] theorem State.setPc_plat (t : Word) : (s.setPc t).plat = s.plat := rfl
@[simp] theorem State.setPc_readReg (t : Word) (r : RegId) :
    (s.setPc t).readReg r = s.readReg r := rfl
@[simp] theorem State.setPc_byteAt (t : Word) (a : Nat) : (s.setPc t).byteAt a = s.byteAt a := rfl

theorem State.advance_eq : s.advance = s.setPc (s.pc + 4#32) := rfl
theorem State.pcPlus4_eq : s.pcPlus4 = s.pc + 4#32 := rfl

/-! `writeReg`. -/
@[simp] theorem State.writeReg_pc (r : RegId) (v : Word) : (s.writeReg r v).pc = s.pc := by
  unfold State.writeReg; split <;> rfl
@[simp] theorem State.writeReg_mepc (r : RegId) (v : Word) : (s.writeReg r v).mepc = s.mepc := by
  unfold State.writeReg; split <;> rfl
@[simp] theorem State.writeReg_ni (r : RegId) (v : Word) : (s.writeReg r v).ni = s.ni := by
  unfold State.writeReg; split <;> rfl
@[simp] theorem State.writeReg_mem (r : RegId) (v : Word) : (s.writeReg r v).mem = s.mem := by
  unfold State.writeReg; split <;> rfl
@[simp] theorem State.writeReg_stored (r : RegId) (v : Word) :
    (s.writeReg r v).stored = s.stored := by
  unfold State.writeReg; split <;> rfl
@[simp] theorem State.writeReg_events (r : RegId) (v : Word) :
    (s.writeReg r v).events = s.events := by
  unfold State.writeReg; split <;> rfl
@[simp] theorem State.writeReg_draws (r : RegId) (v : Word) :
    (s.writeReg r v).draws = s.draws := by
  unfold State.writeReg; split <;> rfl
@[simp] theorem State.writeReg_irq (r : RegId) (v : Word) : (s.writeReg r v).irq = s.irq := by
  unfold State.writeReg; split <;> rfl
@[simp] theorem State.writeReg_plat (r : RegId) (v : Word) : (s.writeReg r v).plat = s.plat := by
  unfold State.writeReg; split <;> rfl
@[simp] theorem State.writeReg_byteAt (r : RegId) (v : Word) (a : Nat) :
    (s.writeReg r v).byteAt a = s.byteAt a := by
  simp [State.byteAt]

/-- `x0` reads 0 whatever the register file holds (R21). -/
@[simp] theorem State.readReg_zero : s.readReg 0#5 = 0#32 := by simp [State.readReg]

/-- What a write of a register leaves in each register (R20, R21). -/
theorem State.readReg_writeReg (r q : RegId) (v : Word) :
    (s.writeReg r v).readReg q =
      if q = 0#5 then 0#32 else if q = r then v else s.readReg q := by
  by_cases hq : q = 0#5
  · simp [hq]
  · by_cases hr : r = 0#5
    · have : q ≠ r := fun e => hq (e.trans hr)
      simp [State.writeReg, hr, hq]
    · by_cases hqr : q = r
      · subst hqr
        simp [State.writeReg, State.readReg, hq]
      · have hn : r.toNat ≠ q.toNat := fun e => hqr (BitVec.eq_of_toNat_eq e).symm
        simp [State.writeReg, State.readReg, hr, hq, hqr, hn]

@[simp] theorem State.readReg_writeReg_same (r : RegId) (v : Word) :
    (s.writeReg r v).readReg r = if r = 0#5 then 0#32 else v := by
  simp [State.readReg_writeReg]

theorem State.readReg_writeReg_other (r q : RegId) (v : Word) (h : q ≠ r) :
    (s.writeReg r v).readReg q = s.readReg q := by
  rw [State.readReg_writeReg]
  split
  · next hq => simp [hq]
  · simp

/-- Entry 0 of the register file is never written. -/
@[simp] theorem State.writeReg_entry0 (r : RegId) (v : Word) :
    (s.writeReg r v).regs[0] = s.regs[0] := by
  unfold State.writeReg
  split
  · rfl
  · next h =>
    have hr : r.toNat ≠ 0 := fun e => h (BitVec.eq_of_toNat_eq e)
    exact Vector.getElem_set_ne r.isLt (by decide) hr

/-! `noteAccess`. -/
@[simp] theorem State.noteAccess_pc (a n : Nat) (e : DeviceEvent) :
    (s.noteAccess a n e).pc = s.pc := by unfold State.noteAccess; split <;> rfl
@[simp] theorem State.noteAccess_regs (a n : Nat) (e : DeviceEvent) :
    (s.noteAccess a n e).regs = s.regs := by unfold State.noteAccess; split <;> rfl
@[simp] theorem State.noteAccess_mepc (a n : Nat) (e : DeviceEvent) :
    (s.noteAccess a n e).mepc = s.mepc := by unfold State.noteAccess; split <;> rfl
@[simp] theorem State.noteAccess_ni (a n : Nat) (e : DeviceEvent) :
    (s.noteAccess a n e).ni = s.ni := by unfold State.noteAccess; split <;> rfl
@[simp] theorem State.noteAccess_mem (a n : Nat) (e : DeviceEvent) :
    (s.noteAccess a n e).mem = s.mem := by unfold State.noteAccess; split <;> rfl
@[simp] theorem State.noteAccess_stored (a n : Nat) (e : DeviceEvent) :
    (s.noteAccess a n e).stored = s.stored := by unfold State.noteAccess; split <;> rfl
@[simp] theorem State.noteAccess_irq (a n : Nat) (e : DeviceEvent) :
    (s.noteAccess a n e).irq = s.irq := by unfold State.noteAccess; split <;> rfl
@[simp] theorem State.noteAccess_plat (a n : Nat) (e : DeviceEvent) :
    (s.noteAccess a n e).plat = s.plat := by unfold State.noteAccess; split <;> rfl
@[simp] theorem State.noteAccess_readReg (a n : Nat) (e : DeviceEvent) (r : RegId) :
    (s.noteAccess a n e).readReg r = s.readReg r := by simp [State.readReg]
@[simp] theorem State.noteAccess_byteAt (a n : Nat) (e : DeviceEvent) (x : Nat) :
    (s.noteAccess a n e).byteAt x = s.byteAt x := by simp [State.byteAt]

/-- What an access hands to devices: all of it, once. -/
theorem State.noteAccess_record (a n : Nat) (e : DeviceEvent) :
    DeviceRecord s (s.noteAccess a n e) a n e := by
  constructor <;> intro h <;> simp [State.noteAccess, h]

/-- An access that touches no device leaves the state as it is. -/
theorem State.noteAccess_plain (a n : Nat) (e : DeviceEvent) (h : s.touchesDevice a n = false) :
    s.noteAccess a n e = s := by simp [State.noteAccess, h]

/-! `writeByte`. -/
@[simp] theorem State.writeByte_pc (a : Nat) (b : Byte) : (s.writeByte a b).pc = s.pc := rfl
@[simp] theorem State.writeByte_regs (a : Nat) (b : Byte) : (s.writeByte a b).regs = s.regs := rfl
@[simp] theorem State.writeByte_mepc (a : Nat) (b : Byte) : (s.writeByte a b).mepc = s.mepc := rfl
@[simp] theorem State.writeByte_ni (a : Nat) (b : Byte) : (s.writeByte a b).ni = s.ni := rfl
@[simp] theorem State.writeByte_stored (a : Nat) (b : Byte) :
    (s.writeByte a b).stored = AddrSet.add s.stored a := rfl
@[simp] theorem State.writeByte_events (a : Nat) (b : Byte) :
    (s.writeByte a b).events = s.events := rfl
@[simp] theorem State.writeByte_draws (a : Nat) (b : Byte) :
    (s.writeByte a b).draws = s.draws := rfl
@[simp] theorem State.writeByte_irq (a : Nat) (b : Byte) : (s.writeByte a b).irq = s.irq := rfl
@[simp] theorem State.writeByte_plat (a : Nat) (b : Byte) : (s.writeByte a b).plat = s.plat := rfl

/-! `takeInterrupt` (R172). -/
@[simp] theorem State.takeInterrupt_pc : s.takeInterrupt.pc = 4#32 := rfl
@[simp] theorem State.takeInterrupt_mepc : s.takeInterrupt.mepc = s.pc := rfl
@[simp] theorem State.takeInterrupt_ni : s.takeInterrupt.ni = true := rfl
@[simp] theorem State.takeInterrupt_regs : s.takeInterrupt.regs = s.regs := rfl
@[simp] theorem State.takeInterrupt_mem : s.takeInterrupt.mem = s.mem := rfl
@[simp] theorem State.takeInterrupt_stored : s.takeInterrupt.stored = s.stored := rfl
@[simp] theorem State.takeInterrupt_events : s.takeInterrupt.events = s.events := rfl
@[simp] theorem State.takeInterrupt_draws : s.takeInterrupt.draws = s.draws := rfl
@[simp] theorem State.takeInterrupt_irq : s.takeInterrupt.irq = s.irq := rfl
@[simp] theorem State.takeInterrupt_plat : s.takeInterrupt.plat = s.plat := rfl
@[simp] theorem State.takeInterrupt_readReg (r : RegId) :
    s.takeInterrupt.readReg r = s.readReg r := rfl
@[simp] theorem State.takeInterrupt_byteAt (a : Nat) : s.takeInterrupt.byteAt a = s.byteAt a := rfl

/-! `returnFromInterrupt` (R175). -/
@[simp] theorem State.returnFromInterrupt_pc : s.returnFromInterrupt.pc = s.mepc := rfl
@[simp] theorem State.returnFromInterrupt_mepc : s.returnFromInterrupt.mepc = s.mepc := rfl
@[simp] theorem State.returnFromInterrupt_ni : s.returnFromInterrupt.ni = false := rfl
@[simp] theorem State.returnFromInterrupt_regs : s.returnFromInterrupt.regs = s.regs := rfl
@[simp] theorem State.returnFromInterrupt_mem : s.returnFromInterrupt.mem = s.mem := rfl
@[simp] theorem State.returnFromInterrupt_stored :
    s.returnFromInterrupt.stored = s.stored := rfl
@[simp] theorem State.returnFromInterrupt_events :
    s.returnFromInterrupt.events = s.events := rfl
@[simp] theorem State.returnFromInterrupt_draws : s.returnFromInterrupt.draws = s.draws := rfl
@[simp] theorem State.returnFromInterrupt_irq : s.returnFromInterrupt.irq = s.irq := rfl
@[simp] theorem State.returnFromInterrupt_plat : s.returnFromInterrupt.plat = s.plat := rfl
@[simp] theorem State.returnFromInterrupt_readReg (r : RegId) :
    s.returnFromInterrupt.readReg r = s.readReg r := rfl
@[simp] theorem State.returnFromInterrupt_byteAt (a : Nat) :
    s.returnFromInterrupt.byteAt a = s.byteAt a := rfl

end Sys2Proof.Machine
end

