-- ==== Sys2Proof/Laws/Ops.lean ====
section
/-! SUPPORT. For each shared operation, one lemma that says what it can do; the provers cite these instead
of unfolding the operation. -/

namespace Sys2Proof.Machine

theorem aligned_iff (t : Word) (n : Nat) : aligned t n = true ↔ t.toNat % n = 0 := by
  simp [aligned]

/-- An aligned access of 1, 2 or 4 bytes stays below 2^32. -/
theorem aligned_end {addr : Word} {n : Nat} (hn : n = 1 ∨ n = 2 ∨ n = 4)
    (h : aligned addr n = true) : addr.toNat + n ≤ 4294967296 := by
  have := addr.isLt
  rw [aligned_iff] at h
  rcases hn with rfl | rfl | rfl <;> omega

/-- `pc + 4` keeps a multiple of 4, wrapping included (`10_state.md` R27). -/
theorem plus4_aligned {w : Word} (h : w.toNat % 4 = 0) : (w + 4#32).toNat % 4 = 0 := by
  have := w.isLt
  simp only [BitVec.toNat_add, BitVec.toNat_ofNat]
  omega

/-! The memory map only depends on the platform. -/

theorem State.allowsByte_congr {s t : State} (h : t.plat = s.plat) (k : AccessKind) (a : Nat) :
    t.allowsByte k a = s.allowsByte k a := by simp [State.allowsByte, h]

theorem State.allows_congr {s t : State} (h : t.plat = s.plat) (k : AccessKind) (a n : Nat) :
    t.allows k a n = s.allows k a n := by
  induction n generalizing a with
  | zero => rfl
  | succ n ih => simp [State.allows, State.allowsByte_congr h, ih]

theorem State.isDevice_congr {s t : State} (h : t.plat = s.plat) (a : Nat) :
    t.isDevice a = s.isDevice a := by simp [State.isDevice, h]

theorem State.touchesDevice_congr {s t : State} (h : t.plat = s.plat) (a n : Nat) :
    t.touchesDevice a n = s.touchesDevice a n := by
  induction n generalizing a with
  | zero => rfl
  | succ n ih => simp [State.touchesDevice, State.isDevice_congr h, ih]

/-- No byte of an access that touches no device is a device's. -/
theorem State.touchesDevice_false {s : State} {a n : Nat} (h : s.touchesDevice a n = false) :
    ∀ i, i < n → s.isDevice (a + i) = false := by
  induction n generalizing a with
  | zero => intro i hi; omega
  | succ n ih =>
    simp only [State.touchesDevice, Bool.or_eq_false_iff] at h
    intro i hi
    match i with
    | 0 => exact h.1
    | i + 1 =>
      have := ih h.2 i (by omega)
      rwa [Nat.add_assoc, Nat.add_comm 1 i] at this

/-- The map allows an access exactly when it allows each of its bytes. -/
theorem State.allows_iff (s : State) (k : AccessKind) (a n : Nat) :
    s.allows k a n = true ↔ ∀ j, j < n → s.allowsByte k (a + j) = true := by
  induction n generalizing a with
  | zero => simp [State.allows]
  | succ n ih =>
    simp only [State.allows, Bool.and_eq_true, ih]
    constructor
    · rintro ⟨h0, h⟩ j hj
      match j with
      | 0 => exact h0
      | j + 1 =>
        have := h j (by omega)
        rwa [Nat.add_assoc, Nat.add_comm 1 j] at this
    · intro h
      refine ⟨h 0 (by omega), fun j hj => ?_⟩
      have := h (j + 1) (by omega)
      rwa [Nat.add_comm j 1, ← Nat.add_assoc] at this

/-- The policy lets a fetch be made exactly under `coherent`, or where no byte of it was stored. -/
theorem State.smcForbids_false (s : State) :
    s.smcForbids = false ↔
      s.plat.smc = .coherent ∨ ∀ j, j < 4 → AddrSet.has s.stored (s.pc.toNat + j) = false := by
  have e : s.anyStored s.pc.toNat 4 = false ↔
      ∀ j, j < 4 → AddrSet.has s.stored (s.pc.toNat + j) = false := by
    simp only [State.anyStored, Bool.or_eq_false_iff]
    constructor
    · rintro ⟨h0, h1, h2, h3, -⟩ j hj
      interval_cases j <;> assumption
    · intro h
      exact ⟨h 0 (by omega), h 1 (by omega), h 2 (by omega), h 3 (by omega), trivial⟩
  unfold State.smcForbids
  cases h : s.plat.smc <;> simp [e]

/-! Bytes. -/

/-- A word is its four bytes, the most significant first. -/
theorem word_bytes (v : Word) :
    v.extractLsb' 24 8 ++ v.extractLsb' 16 8 ++ v.extractLsb' 8 8 ++ v.extractLsb' 0 8 = v := by
  erw [slice_join v 16 8 8, slice_join v 8 8 16, slice_join v 0 8 24]
  exact slice_all v


/-- A read of a byte where no device stands gets memory's byte (`20_memory.md` R51). -/
theorem State.readByte_plain {s : State} {a : Nat} (h : s.isDevice a = false) :
    s.readByte a = s.byteAt a := by simp [State.readByte, h]

/-- A word read at plain addresses is memory's four bytes. -/
theorem State.read32_plain {s : State} {a : Nat} (h : s.touchesDevice a 4 = false) :
    s.read32 a = s.byteAt (a + 3) ++ s.byteAt (a + 2) ++ s.byteAt (a + 1) ++ s.byteAt a := by
  have d := State.touchesDevice_false h
  unfold State.read32
  rw [State.readByte_plain (d 3 (by omega)), State.readByte_plain (d 2 (by omega)),
    State.readByte_plain (d 1 (by omega)), State.readByte_plain (a := a) (d 0 (by omega))]

theorem State.byteAt_congr {s t : State} (h : t.mem = s.mem) (a : Nat) :
    t.byteAt a = s.byteAt a := by simp [State.byteAt, h]

/-- What writing one byte leaves at each address. -/
theorem State.writeByte_byteAt (s : State) (a x : Nat) (b : Byte) :
    (s.writeByte a b).byteAt x =
      if x = a ∧ s.isDevice a = false then b else s.byteAt x := by
  cases hd : s.isDevice a with
  | true => simp [State.writeByte, State.byteAt, hd]
  | false =>
    by_cases hx : x = a
    · simp [State.writeByte, State.byteAt, hd, Memory.get_set, hx]
    · simp [State.writeByte, State.byteAt, hd, Memory.get_set, hx]

theorem State.writeByte_mem_wf {s : State} {a : Nat} (b : Byte) (hm : s.mem.wf = true)
    (ha : a < 4294967296) : (s.writeByte a b).mem.wf = true := by
  unfold State.writeByte
  dsimp only
  split
  · exact hm
  · exact Memory.set_wf b hm ha

/-- A write of `n` bytes changes only memory and the set of stored addresses. -/
theorem State.writeBytes_frame (s : State) (a : Nat) (v : Word) (n : Nat) :
    (s.writeBytes a v n).regs = s.regs ∧ (s.writeBytes a v n).pc = s.pc ∧
    (s.writeBytes a v n).mepc = s.mepc ∧ (s.writeBytes a v n).ni = s.ni ∧
    (s.writeBytes a v n).events = s.events ∧ (s.writeBytes a v n).draws = s.draws ∧
    (s.writeBytes a v n).irq = s.irq ∧ (s.writeBytes a v n).plat = s.plat := by
  induction n generalizing s a v with
  | zero => simp [State.writeBytes]
  | succ n ih => simpa [State.writeBytes] using ih (s.writeByte a (v.setWidth 8)) (a + 1) (v >>> 8)

@[simp] theorem State.writeBytes_regs (s : State) (a : Nat) (v : Word) (n : Nat) :
    (s.writeBytes a v n).regs = s.regs := (s.writeBytes_frame a v n).1
@[simp] theorem State.writeBytes_pc (s : State) (a : Nat) (v : Word) (n : Nat) :
    (s.writeBytes a v n).pc = s.pc := (s.writeBytes_frame a v n).2.1
@[simp] theorem State.writeBytes_mepc (s : State) (a : Nat) (v : Word) (n : Nat) :
    (s.writeBytes a v n).mepc = s.mepc := (s.writeBytes_frame a v n).2.2.1
@[simp] theorem State.writeBytes_ni (s : State) (a : Nat) (v : Word) (n : Nat) :
    (s.writeBytes a v n).ni = s.ni := (s.writeBytes_frame a v n).2.2.2.1
@[simp] theorem State.writeBytes_events (s : State) (a : Nat) (v : Word) (n : Nat) :
    (s.writeBytes a v n).events = s.events := (s.writeBytes_frame a v n).2.2.2.2.1
@[simp] theorem State.writeBytes_draws (s : State) (a : Nat) (v : Word) (n : Nat) :
    (s.writeBytes a v n).draws = s.draws := (s.writeBytes_frame a v n).2.2.2.2.2.1
@[simp] theorem State.writeBytes_irq (s : State) (a : Nat) (v : Word) (n : Nat) :
    (s.writeBytes a v n).irq = s.irq := (s.writeBytes_frame a v n).2.2.2.2.2.2.1
@[simp] theorem State.writeBytes_plat (s : State) (a : Nat) (v : Word) (n : Nat) :
    (s.writeBytes a v n).plat = s.plat := (s.writeBytes_frame a v n).2.2.2.2.2.2.2

/-- A write of `n` bytes leaves every byte outside them as before (`20_memory.md` R45). -/
theorem State.writeBytes_byteAt_outside (s : State) (a : Nat) (v : Word) (n x : Nat)
    (h : x < a ∨ a + n ≤ x) : (s.writeBytes a v n).byteAt x = s.byteAt x := by
  induction n generalizing s a v with
  | zero => rfl
  | succ n ih =>
    rw [State.writeBytes, ih _ _ _ (by omega), State.writeByte_byteAt]
    have : x ≠ a := by omega
    simp [this]

/-- A write of `n` bytes puts byte `i` of the value at `a + i` (`20_memory.md` R42, R45), but where a device
stands. -/
theorem State.writeBytes_byteAt_inside (s : State) (a : Nat) (v : Word) (n i : Nat) (h : i < n) :
    (s.writeBytes a v n).byteAt (a + i) =
      if s.isDevice (a + i) then s.byteAt (a + i) else v.extractLsb' (8 * i) 8 := by
  induction n generalizing s a v i with
  | zero => omega
  | succ n ih =>
    rw [State.writeBytes]
    match i with
    | 0 =>
      rw [State.writeBytes_byteAt_outside _ _ _ _ _ (by omega), State.writeByte_byteAt]
      have e : v.setWidth 8 = v.extractLsb' (8 * 0) 8 := by
        apply BitVec.eq_of_getLsbD_eq
        intro k hk
        simp [hk]
      rw [Nat.add_zero, e]
      cases hd : s.isDevice a <;> simp
    | i + 1 =>
      have e : a + (i + 1) = a + 1 + i := by omega
      rw [e, ih _ _ _ _ (by omega), State.writeByte_byteAt,
        State.isDevice_congr (State.writeByte_plat s a _)]
      have hne : a + 1 + i ≠ a := by omega
      have hv : (v >>> 8).extractLsb' (8 * i) 8 = v.extractLsb' (8 * (i + 1)) 8 := by
        apply BitVec.eq_of_getLsbD_eq
        intro k hk
        simp only [BitVec.getLsbD_extractLsb', BitVec.getLsbD_ushiftRight]
        congr 2
        omega
      simp [hne, hv]

/-- A write of `n` bytes records exactly its addresses as stored (`20_memory.md` R58). -/
theorem State.writeBytes_stored (s : State) (a : Nat) (v : Word) (n x : Nat) :
    AddrSet.has (s.writeBytes a v n).stored x = true ↔
      AddrSet.has s.stored x = true ∨ (a ≤ x ∧ x < a + n) := by
  induction n generalizing s a v with
  | zero =>
    simp only [State.writeBytes]
    exact ⟨.inl, fun h => h.resolve_right (by omega)⟩
  | succ n ih =>
    rw [State.writeBytes, ih, State.writeByte_stored, AddrSet.has_add]
    simp only [Bool.or_eq_true, decide_eq_true_eq]
    constructor
    · rintro ((rfl | h) | h)
      · right; omega
      · exact .inl h
      · right; omega
    · rintro (h | h)
      · exact .inl (.inr h)
      · by_cases e : a = x
        · exact .inl (.inl e)
        · right; omega

/-- A write of `n` bytes below 2^32 keeps both canonical forms. -/
theorem State.writeBytes_wf {s : State} {a n : Nat} (v : Word) (hm : s.mem.wf = true)
    (hs : AddrSet.wf s.stored = true) (h : a + n ≤ 4294967296) :
    (s.writeBytes a v n).mem.wf = true ∧ AddrSet.wf (s.writeBytes a v n).stored = true := by
  induction n generalizing s a v with
  | zero => exact ⟨hm, hs⟩
  | succ n ih =>
    exact ih _ (State.writeByte_mem_wf _ hm (by omega)) (AddrSet.add_wf hs (by omega)) (by omega)

/-- Loading bytes below 2^32 from outside keeps both canonical forms. -/
theorem State.loadBytes_wf {s : State} {a : Nat} {bs : List Byte} (hm : s.mem.wf = true)
    (hs : AddrSet.wf s.stored = true) (h : a + bs.length ≤ 4294967296) :
    (s.loadBytes a bs).mem.wf = true ∧ AddrSet.wf (s.loadBytes a bs).stored = true := by
  induction bs generalizing s a with
  | nil => exact ⟨hm, hs⟩
  | cons b bs ih =>
    rw [List.length_cons] at h
    exact ih (Memory.set_wf b hm (by omega)) (AddrSet.remove_wf a hs) (by omega)

/-! What each shared operation answers. -/

/-- The checks on a data access pass exactly for an aligned access that the map allows. -/
theorem State.checkAccess_none (s : State) (k : AccessKind) (addr : Word) (n : Nat) :
    s.checkAccess k addr n = none ↔ addr.toNat % n = 0 ∧ s.allows k addr.toNat n = true := by
  rw [← aligned_iff]
  unfold State.checkAccess
  cases aligned addr n <;> cases s.allows k addr.toNat n <;> simp

/-- A load answers a next state exactly when its checks pass, and then the one state of the access. -/
theorem State.load_next_iff (s t : State) (rd : RegId) (addr : Word) (n : Nat)
    (value : State → Nat → Word) :
    s.load rd addr n value = .next t ↔
      s.checkAccess .read addr n = none ∧
      ((s.noteAccess addr.toNat n (.read addr n)).writeReg rd (value s addr.toNat)).advance = t := by
  unfold State.load
  cases s.checkAccess .read addr n <;> simp

/-- A store answers a next state exactly when its checks pass, and then the one state of the access. -/
theorem State.store_next_iff (s t : State) (addr : Word) (n : Nat) (v : Word) :
    s.store addr n v = .next t ↔
      s.checkAccess .write addr n = none ∧
      ((s.noteAccess addr.toNat n (.write addr n v)).writeBytes addr.toNat v n).advance = t := by
  unfold State.store
  cases s.checkAccess .write addr n <;> simp

/-- A transfer answers a next state exactly for a target that is a multiple of 4. -/
theorem State.transfer_next_iff (s t : State) (target : Word) :
    s.transfer target = .next t ↔ target.toNat % 4 = 0 ∧ s.setPc target = t := by
  rw [← aligned_iff]
  unfold State.transfer
  cases aligned target 4 <;> simp

/-- A jump answers a next state exactly for a target that is a multiple of 4. -/
theorem State.jumpAndLink_next_iff (s t : State) (rd : RegId) (target : Word) :
    s.jumpAndLink rd target = .next t ↔
      target.toNat % 4 = 0 ∧ (s.writeReg rd (s.pc + 4#32)).setPc target = t :=
  State.transfer_next_iff _ _ _

/-- A branch goes to its target, a multiple of 4, or on to `pc + 4`. -/
theorem State.branchIf_next_iff (s t : State) (c : Bool) (imm : Word) :
    s.branchIf c imm = .next t ↔
      (c = true ∧ (s.pc + imm).toNat % 4 = 0 ∧ s.setPc (s.pc + imm) = t) ∨
      (c = false ∧ s.setPc (s.pc + 4#32) = t) := by
  cases c
  · simp [State.branchIf, State.advance_eq]
  · have h := State.transfer_next_iff s t (s.pc + imm)
    simp only [State.branchIf, State.pcRel, addWord, if_true, true_and, h]
    simp

/-- An instruction of the form `x[rd] <- v` has that whole effect (R130, R140). -/
theorem State.setResult_result (s : State) (rd : RegId) (v : Word) :
    ∃ t, s.setResult rd v = .next t ∧ RegResult s t rd v :=
  ⟨_, rfl,
    { result := by simp [State.advance_eq]
      others := fun r hr => by simp [State.advance_eq, State.readReg_writeReg_other _ _ _ _ hr]
      next_pc := by simp [State.advance_eq]
      trap := ⟨by simp [State.advance_eq], by simp [State.advance_eq]⟩
      memory := ⟨fun a => by simp [State.advance_eq], by simp [State.advance_eq]⟩
      devices := ⟨by simp [State.advance_eq], by simp [State.advance_eq]⟩
      inputs := ⟨by simp [State.advance_eq], by simp [State.advance_eq]⟩ }⟩

/-- A load that passes its checks has the whole effect of a load. -/
theorem State.load_result (s : State) (rd : RegId) (addr : Word) (n : Nat)
    (value : State → Nat → Word) (ha : addr.toNat % n = 0)
    (hm : s.allows .read addr.toNat n = true) :
    ∃ t, s.load rd addr n value = .next t ∧ LoadResult s t rd addr n (value s addr.toNat) := by
  refine ⟨_, (State.load_next_iff _ _ _ _ _ _).2
    ⟨(State.checkAccess_none _ _ _ _).2 ⟨ha, hm⟩, rfl⟩, ?_⟩
  exact
    { result := by simp [State.advance_eq]
      others := fun r hr => by simp [State.advance_eq, State.readReg_writeReg_other _ _ _ _ hr]
      next_pc := by simp [State.advance_eq]
      trap := ⟨by simp [State.advance_eq], by simp [State.advance_eq]⟩
      memory := ⟨fun a => by simp [State.advance_eq], by simp [State.advance_eq]⟩
      devices := by
        simpa [DeviceRecord, State.advance_eq] using
          s.noteAccess_record addr.toNat n (.read addr n)
      inputs := ⟨by simp [State.advance_eq], by simp [State.advance_eq]⟩ }

/-- A store that passes its checks has the whole effect of a store. -/
theorem State.store_result (s : State) (addr : Word) (n : Nat) (v : Word)
    (ha : addr.toNat % n = 0) (hm : s.allows .write addr.toNat n = true) :
    ∃ t, s.store addr n v = .next t ∧ StoreResult s t addr n v := by
  refine ⟨_, (State.store_next_iff _ _ _ _ _).2
    ⟨(State.checkAccess_none _ _ _ _).2 ⟨ha, hm⟩, rfl⟩, ?_⟩
  have hdev := fun x => State.isDevice_congr (s := s)
    (t := s.noteAccess addr.toNat n (.write addr n v)) (State.noteAccess_plat _ _ _ _) x
  exact
    { written := fun i hi hd => by
        simp [State.advance_eq, State.writeBytes_byteAt_inside _ _ _ _ _ hi, hdev, hd]
      device_bytes := fun i hi hd => by
        simp [State.advance_eq, State.writeBytes_byteAt_inside _ _ _ _ _ hi, hdev, hd]
      outside := fun a h => by
        simp [State.advance_eq, State.writeBytes_byteAt_outside _ _ _ _ _ h]
      recorded := fun a => by simp [State.advance_eq, State.writeBytes_stored]
      regs := fun r => by simp [State.advance_eq, State.readReg]
      next_pc := by simp [State.advance_eq]
      trap := ⟨by simp [State.advance_eq], by simp [State.advance_eq]⟩
      devices := by
        simpa [DeviceRecord, State.advance_eq] using
          s.noteAccess_record addr.toNat n (.write addr n v)
      inputs := ⟨by simp [State.advance_eq], by simp [State.advance_eq]⟩ }

/-- A fetch answers a word exactly for a `pc` that is a multiple of 4, in executable memory, which the policy
does not forbid. -/
theorem State.fetch_ok_iff (s s1 : State) (w : Word) :
    s.fetch = .ok (w, s1) ↔
      s.pc.toNat % 4 = 0 ∧ s.allows .fetch s.pc.toNat 4 = true ∧ s.smcForbids = false ∧
      s.read32 s.pc.toNat = w ∧ s.noteAccess s.pc.toNat 4 (.fetch s.pc) = s1 := by
  rw [← aligned_iff]
  unfold State.fetch
  cases aligned s.pc 4 <;> cases s.allows .fetch s.pc.toNat 4 <;> cases s.smcForbids <;> simp

/-- The end of a step: the entry of the interrupt, or none (`60_exceptions.md` R170). -/
theorem State.retire_cases (s0 s1 : State) :
    (s0.irqNow = true ∧ s0.ni = false ∧
      State.retire s0 s1 = { s1 with irq := s0.irqLater, ni := true, mepc := s1.pc, pc := 4#32 }) ∨
    ((s0.irqNow = false ∨ s0.ni = true) ∧ State.retire s0 s1 = { s1 with irq := s0.irqLater }) := by
  unfold State.retire
  cases s0.irqNow <;> cases s0.ni <;> simp [State.takeInterrupt, irqVector]

/-- A step answers a next state exactly when the fetch, the decoder and the instruction do. -/
theorem step_next_iff (s t : State) :
    step s = .next t ↔
      ∃ w s1 i s2, s.fetch = .ok (w, s1) ∧ decode w = .ok i ∧ exec i s1 = .next s2 ∧
        s1.retire s2 = t := by
  unfold step
  cases hf : s.fetch with
  | error f => simp
  | ok p =>
    obtain ⟨w, s1⟩ := p
    cases hd : decode w with
    | error e => simp [hd]
    | ok i => cases he : exec i s1 <;> simp [hd, he]

end Sys2Proof.Machine
end

