-- ==== Sys2Proof/Laws/Exec.lean ====
section
/-! SUPPORT. What any instruction can do when it answers a next state: one of six shapes. -/

namespace Sys2Proof.Machine

/-- The shapes of an instruction's effect. -/
inductive ExecShape (i : Instr) (s t : State) : Prop where
  /-- `x[rd] <- v`, `next_pc = pc + 4` -/
  | result (rd : RegId) (v : Word) (named : rd ∈ namedRegs i)
      (eq : t = (s.writeReg rd v).setPc (s.pc + 4#32))
  /-- a jump to a multiple of 4, with its link -/
  | jump (rd : RegId) (target : Word) (named : rd ∈ namedRegs i) (aligned : target.toNat % 4 = 0)
      (eq : t = (s.writeReg rd (s.pc + 4#32)).setPc target)
  /-- a branch: to a multiple of 4, or on to `pc + 4` -/
  | branch (target : Word) (aligned : target.toNat % 4 = 0 ∨ target = s.pc + 4#32)
      (eq : t = s.setPc target)
  /-- a load that passed its checks -/
  | load (rd : RegId) (addr : Word) (n : Nat) (v : Word) (named : rd ∈ namedRegs i)
      (size : n = 1 ∨ n = 2 ∨ n = 4) (checks : s.checkAccess .read addr n = none)
      (eq : t = ((s.noteAccess addr.toNat n (.read addr n)).writeReg rd v).setPc (s.pc + 4#32))
  /-- a store that passed its checks -/
  | store (addr : Word) (n : Nat) (v : Word)
      (size : n = 1 ∨ n = 2 ∨ n = 4) (checks : s.checkAccess .write addr n = none)
      (eq : t = ((s.noteAccess addr.toNat n (.write addr n v)).writeBytes addr.toNat v n).setPc
        (s.pc + 4#32))
  /-- MRET with a `mepc` that is a multiple of 4 -/
  | mret (isMret : i = .mret) (aligned : s.mepc.toNat % 4 = 0) (eq : t = s.returnFromInterrupt)

theorem ExecShape.of_setResult {i : Instr} {s t : State} {rd : RegId} {v : Word}
    (h : s.setResult rd v = .next t) (named : rd ∈ namedRegs i) : ExecShape i s t := by
  simp only [State.setResult, Host.Outcome.next.injEq] at h
  exact .result rd v named (by rw [← h, State.advance_eq, State.writeReg_pc])

theorem ExecShape.of_jump {i : Instr} {s t : State} {rd : RegId} {target : Word}
    (h : s.jumpAndLink rd target = .next t) (named : rd ∈ namedRegs i) : ExecShape i s t := by
  obtain ⟨ha, he⟩ := (State.jumpAndLink_next_iff s t rd target).1 h
  exact .jump rd target named ha he.symm

theorem ExecShape.of_branch {i : Instr} {s t : State} {c : Bool} {imm : Word}
    (h : s.branchIf c imm = .next t) : ExecShape i s t := by
  rcases (State.branchIf_next_iff s t c imm).1 h with ⟨-, ha, he⟩ | ⟨-, he⟩
  · exact .branch _ (.inl ha) he.symm
  · exact .branch _ (.inr rfl) he.symm

theorem ExecShape.of_load {i : Instr} {s t : State} {rd : RegId} {addr : Word} {n : Nat}
    {value : State → Nat → Word} (h : s.load rd addr n value = .next t)
    (named : rd ∈ namedRegs i) (size : n = 1 ∨ n = 2 ∨ n = 4) : ExecShape i s t := by
  obtain ⟨hc, he⟩ := (State.load_next_iff s t rd addr n value).1 h
  refine .load rd addr n (value s addr.toNat) named size hc ?_
  rw [← he, State.advance_eq, State.writeReg_pc, State.noteAccess_pc]

theorem ExecShape.of_store {i : Instr} {s t : State} {addr : Word} {n : Nat} {v : Word}
    (h : s.store addr n v = .next t) (size : n = 1 ∨ n = 2 ∨ n = 4) : ExecShape i s t := by
  obtain ⟨hc, he⟩ := (State.store_next_iff s t addr n v).1 h
  refine .store addr n v size hc ?_
  rw [← he, State.advance_eq, State.writeBytes_pc, State.noteAccess_pc]

/-- Every instruction that answers a next state has one of the shapes. -/
theorem exec_shape {i : Instr} {s t : State} (h : exec i s = .next t) : ExecShape i s t := by
  cases i with
  | lui | auipc | addi | slli | slti | sltiu | xori | srli | srai | ori | andi | add | sub | sll
  | slt | sltu | xor | srl | sra | or | and => exact .of_setResult h (by simp [namedRegs])
  | jal | jalr => exact .of_jump h (by simp [namedRegs])
  | beq | bne | blt | bge | bltu | bgeu => exact .of_branch h
  | lb =>
    simp only [exec, execLb] at h
    exact .of_load h (by simp [namedRegs]) (.inl rfl)
  | lbu =>
    simp only [exec, execLbu] at h
    exact .of_load h (by simp [namedRegs]) (.inl rfl)
  | lh =>
    simp only [exec, execLh] at h
    exact .of_load h (by simp [namedRegs]) (.inr (.inl rfl))
  | lhu =>
    simp only [exec, execLhu] at h
    exact .of_load h (by simp [namedRegs]) (.inr (.inl rfl))
  | lw =>
    simp only [exec, execLw] at h
    exact .of_load h (by simp [namedRegs]) (.inr (.inr rfl))
  | sb =>
    simp only [exec, execSb] at h
    exact .of_store h (.inl rfl)
  | sh =>
    simp only [exec, execSh] at h
    exact .of_store h (.inr (.inl rfl))
  | sw =>
    simp only [exec, execSw] at h
    exact .of_store h (.inr (.inr rfl))
  | mret =>
    simp only [exec, execMret] at h
    split at h
    · next ha => exact .mret rfl ((aligned_iff _ _).1 ha) (by simpa using h.symm)
    · exact absurd h (by simp)

end Sys2Proof.Machine
end

