-- ==== Sys2Proof/Laws/PerInstr.lean ====
section
/-! SUPPORT. Statements about every instruction as syntax, one lemma per constructor. -/

namespace Sys2Proof.Laws

/-- The word of an instruction matches the mask and the pattern of its row of R72. -/
def RowMatch.Statement (i : Instr) : Prop := encode i &&& i.row.mask = i.row.pattern

theorem opcode_row {w : Word} {p : Word} (op : BitVec 7) (ho : opcode w = op)
    (hp : op.setWidth 32 = p) : w &&& 0x0000007F#32 = p := by
  rw [mask_opcode, ho, hp]

theorem funct3_row {w : Word} {p : Word} (op : BitVec 7) (f3 : BitVec 3) (ho : opcode w = op)
    (h3 : funct3 w = f3)
    (hp : f3.setWidth 32 <<< 12 ||| op.setWidth 32 = p) : w &&& 0x0000707F#32 = p := by
  rw [mask_funct3, ho, h3, hp]

theorem funct7_row {w : Word} {p : Word} (op : BitVec 7) (f3 : BitVec 3) (f7 : BitVec 7)
    (ho : opcode w = op) (h3 : funct3 w = f3) (h7 : funct7 w = f7)
    (hp : f7.setWidth 32 <<< 25 ||| f3.setWidth 32 <<< 12 ||| op.setWidth 32 = p) :
    w &&& 0xFE00707F#32 = p := by
  rw [mask_funct7, ho, h3, h7, hp]

namespace RowMatch

theorem lui (rd : RegId) (imm : Word) : Statement (.lui rd imm) :=
  opcode_row _ (opcode_encodeU _ _ _) rfl

theorem auipc (rd : RegId) (imm : Word) : Statement (.auipc rd imm) :=
  opcode_row _ (opcode_encodeU _ _ _) rfl

theorem jal (rd : RegId) (imm : Word) : Statement (.jal rd imm) :=
  opcode_row _ (opcode_encodeJ _ _ _) rfl

theorem jalr (rd rs1 : RegId) (imm : Word) : Statement (.jalr rd rs1 imm) :=
  funct3_row _ _ (opcode_encodeI _ _ _ _ _) (funct3_encodeI _ _ _ _ _) rfl

theorem beq (rs1 rs2 : RegId) (imm : Word) : Statement (.beq rs1 rs2 imm) :=
  funct3_row _ _ (opcode_encodeB _ _ _ _ _) (funct3_encodeB _ _ _ _ _) rfl

theorem bne (rs1 rs2 : RegId) (imm : Word) : Statement (.bne rs1 rs2 imm) :=
  funct3_row _ _ (opcode_encodeB _ _ _ _ _) (funct3_encodeB _ _ _ _ _) rfl

theorem blt (rs1 rs2 : RegId) (imm : Word) : Statement (.blt rs1 rs2 imm) :=
  funct3_row _ _ (opcode_encodeB _ _ _ _ _) (funct3_encodeB _ _ _ _ _) rfl

theorem bge (rs1 rs2 : RegId) (imm : Word) : Statement (.bge rs1 rs2 imm) :=
  funct3_row _ _ (opcode_encodeB _ _ _ _ _) (funct3_encodeB _ _ _ _ _) rfl

theorem bltu (rs1 rs2 : RegId) (imm : Word) : Statement (.bltu rs1 rs2 imm) :=
  funct3_row _ _ (opcode_encodeB _ _ _ _ _) (funct3_encodeB _ _ _ _ _) rfl

theorem bgeu (rs1 rs2 : RegId) (imm : Word) : Statement (.bgeu rs1 rs2 imm) :=
  funct3_row _ _ (opcode_encodeB _ _ _ _ _) (funct3_encodeB _ _ _ _ _) rfl

theorem lb (rd rs1 : RegId) (imm : Word) : Statement (.lb rd rs1 imm) :=
  funct3_row _ _ (opcode_encodeI _ _ _ _ _) (funct3_encodeI _ _ _ _ _) rfl

theorem lh (rd rs1 : RegId) (imm : Word) : Statement (.lh rd rs1 imm) :=
  funct3_row _ _ (opcode_encodeI _ _ _ _ _) (funct3_encodeI _ _ _ _ _) rfl

theorem lw (rd rs1 : RegId) (imm : Word) : Statement (.lw rd rs1 imm) :=
  funct3_row _ _ (opcode_encodeI _ _ _ _ _) (funct3_encodeI _ _ _ _ _) rfl

theorem lbu (rd rs1 : RegId) (imm : Word) : Statement (.lbu rd rs1 imm) :=
  funct3_row _ _ (opcode_encodeI _ _ _ _ _) (funct3_encodeI _ _ _ _ _) rfl

theorem lhu (rd rs1 : RegId) (imm : Word) : Statement (.lhu rd rs1 imm) :=
  funct3_row _ _ (opcode_encodeI _ _ _ _ _) (funct3_encodeI _ _ _ _ _) rfl

theorem sb (rs2 rs1 : RegId) (imm : Word) : Statement (.sb rs2 rs1 imm) :=
  funct3_row _ _ (opcode_encodeS _ _ _ _ _) (funct3_encodeS _ _ _ _ _) rfl

theorem sh (rs2 rs1 : RegId) (imm : Word) : Statement (.sh rs2 rs1 imm) :=
  funct3_row _ _ (opcode_encodeS _ _ _ _ _) (funct3_encodeS _ _ _ _ _) rfl

theorem sw (rs2 rs1 : RegId) (imm : Word) : Statement (.sw rs2 rs1 imm) :=
  funct3_row _ _ (opcode_encodeS _ _ _ _ _) (funct3_encodeS _ _ _ _ _) rfl

theorem addi (rd rs1 : RegId) (imm : Word) : Statement (.addi rd rs1 imm) :=
  funct3_row _ _ (opcode_encodeI _ _ _ _ _) (funct3_encodeI _ _ _ _ _) rfl

theorem slli (rd rs1 : RegId) (shamt : Shamt) : Statement (.slli rd rs1 shamt) :=
  funct7_row _ _ _ (opcode_encodeR _ _ _ _ _ _) (funct3_encodeR _ _ _ _ _ _)
    (funct7_encodeR _ _ _ _ _ _) rfl

theorem slti (rd rs1 : RegId) (imm : Word) : Statement (.slti rd rs1 imm) :=
  funct3_row _ _ (opcode_encodeI _ _ _ _ _) (funct3_encodeI _ _ _ _ _) rfl

theorem sltiu (rd rs1 : RegId) (imm : Word) : Statement (.sltiu rd rs1 imm) :=
  funct3_row _ _ (opcode_encodeI _ _ _ _ _) (funct3_encodeI _ _ _ _ _) rfl

theorem xori (rd rs1 : RegId) (imm : Word) : Statement (.xori rd rs1 imm) :=
  funct3_row _ _ (opcode_encodeI _ _ _ _ _) (funct3_encodeI _ _ _ _ _) rfl

theorem srli (rd rs1 : RegId) (shamt : Shamt) : Statement (.srli rd rs1 shamt) :=
  funct7_row _ _ _ (opcode_encodeR _ _ _ _ _ _) (funct3_encodeR _ _ _ _ _ _)
    (funct7_encodeR _ _ _ _ _ _) rfl

theorem srai (rd rs1 : RegId) (shamt : Shamt) : Statement (.srai rd rs1 shamt) :=
  funct7_row _ _ _ (opcode_encodeR _ _ _ _ _ _) (funct3_encodeR _ _ _ _ _ _)
    (funct7_encodeR _ _ _ _ _ _) rfl

theorem ori (rd rs1 : RegId) (imm : Word) : Statement (.ori rd rs1 imm) :=
  funct3_row _ _ (opcode_encodeI _ _ _ _ _) (funct3_encodeI _ _ _ _ _) rfl

theorem andi (rd rs1 : RegId) (imm : Word) : Statement (.andi rd rs1 imm) :=
  funct3_row _ _ (opcode_encodeI _ _ _ _ _) (funct3_encodeI _ _ _ _ _) rfl

theorem add (rd rs1 rs2 : RegId) : Statement (.add rd rs1 rs2) :=
  funct7_row _ _ _ (opcode_encodeR _ _ _ _ _ _) (funct3_encodeR _ _ _ _ _ _)
    (funct7_encodeR _ _ _ _ _ _) rfl

theorem sub (rd rs1 rs2 : RegId) : Statement (.sub rd rs1 rs2) :=
  funct7_row _ _ _ (opcode_encodeR _ _ _ _ _ _) (funct3_encodeR _ _ _ _ _ _)
    (funct7_encodeR _ _ _ _ _ _) rfl

theorem sll (rd rs1 rs2 : RegId) : Statement (.sll rd rs1 rs2) :=
  funct7_row _ _ _ (opcode_encodeR _ _ _ _ _ _) (funct3_encodeR _ _ _ _ _ _)
    (funct7_encodeR _ _ _ _ _ _) rfl

theorem slt (rd rs1 rs2 : RegId) : Statement (.slt rd rs1 rs2) :=
  funct7_row _ _ _ (opcode_encodeR _ _ _ _ _ _) (funct3_encodeR _ _ _ _ _ _)
    (funct7_encodeR _ _ _ _ _ _) rfl

theorem sltu (rd rs1 rs2 : RegId) : Statement (.sltu rd rs1 rs2) :=
  funct7_row _ _ _ (opcode_encodeR _ _ _ _ _ _) (funct3_encodeR _ _ _ _ _ _)
    (funct7_encodeR _ _ _ _ _ _) rfl

theorem xor (rd rs1 rs2 : RegId) : Statement (.xor rd rs1 rs2) :=
  funct7_row _ _ _ (opcode_encodeR _ _ _ _ _ _) (funct3_encodeR _ _ _ _ _ _)
    (funct7_encodeR _ _ _ _ _ _) rfl

theorem srl (rd rs1 rs2 : RegId) : Statement (.srl rd rs1 rs2) :=
  funct7_row _ _ _ (opcode_encodeR _ _ _ _ _ _) (funct3_encodeR _ _ _ _ _ _)
    (funct7_encodeR _ _ _ _ _ _) rfl

theorem sra (rd rs1 rs2 : RegId) : Statement (.sra rd rs1 rs2) :=
  funct7_row _ _ _ (opcode_encodeR _ _ _ _ _ _) (funct3_encodeR _ _ _ _ _ _)
    (funct7_encodeR _ _ _ _ _ _) rfl

theorem or (rd rs1 rs2 : RegId) : Statement (.or rd rs1 rs2) :=
  funct7_row _ _ _ (opcode_encodeR _ _ _ _ _ _) (funct3_encodeR _ _ _ _ _ _)
    (funct7_encodeR _ _ _ _ _ _) rfl

theorem and (rd rs1 rs2 : RegId) : Statement (.and rd rs1 rs2) :=
  funct7_row _ _ _ (opcode_encodeR _ _ _ _ _ _) (funct3_encodeR _ _ _ _ _ _)
    (funct7_encodeR _ _ _ _ _ _) rfl

theorem mret : Statement (.mret) :=
  rfl

end RowMatch

end Sys2Proof.Laws
end

