-- ==== Sys2Proof/Tests/Slice0.lean ====
section
/-! SUPPORT. The model's own tests. Expected values are those of `95_test_vectors.md` (the section is named at
each group), or words written out from the encodings of R61 and R72. The last part shows, for each obligation
with hypotheses, states and operands that meet them. -/

namespace Sys2Proof.Tests

open Sys2Proof Sys2Proof.Machine

/-! A small state and what is read of a step. -/

/-- Registers written into a state. -/
def withRegs (s : State) : List (RegId × Word) → State
  | [] => s
  | (r, v) :: rest => withRegs (s.writeReg r v) rest

/-- A state about to run `inst` at `pc`. -/
def ready (pc inst : Word) (regs : List (RegId × Word)) : State :=
  (withRegs { State.reset with pc := pc } regs).withFetchWord 32 inst.toNat

/-- The bytes of section 2.6 at `0x1000`, the only other mapped addresses being the instruction's. -/
def at26 (inst : Word) (regs : List (RegId × Word)) : State :=
  (({ ready 0x100#32 inst regs with
      plat := { Config.platform with map :=
        [⟨0x100, 4, .memory, true, false, true⟩, ⟨0x1000, 8, .memory, true, true, false⟩] } }).loadBytes
    0x1000 [0x80#8, 0x7F#8, 0xFF#8, 0x00#8, 0xEF#8, 0xCD#8, 0xAB#8, 0x89#8])

/-- A register and `pc` after one step. -/
def stepReg (s : State) (r : RegId) : Option (Word × Word) :=
  match step s with
  | .next t => some (t.readReg r, t.pc)
  | .fault _ => none
  | .refused _ => none

/-- The fault of one step. -/
def stepFault (s : State) : Option Fault :=
  match step s with
  | .next _ => none
  | .fault f => some f
  | .refused _ => none

/-- The bytes `0x1000` to `0x1007` after one step. -/
def stepBytes (s : State) : Option (List Byte) :=
  match step s with
  | .next t => some ((List.range 8).map fun k => t.byteAt (0x1000 + k))
  | .fault _ => none
  | .refused _ => none

/-- `pc`, `ni` and `mepc` after one step. -/
def stepTrap (s : State) : Option (Word × Bool × Word) :=
  match step s with
  | .next t => some (t.pc, t.ni, t.mepc)
  | .fault _ => none
  | .refused _ => none

/-! WellFormed: each check refuses a term, and admits its extreme values (R63 to R67). -/

theorem test_wf_i_high : (Instr.addi 1#5 0#5 2048#32).wf = false := by decide
theorem test_wf_i_low : (Instr.lw 1#5 0#5 (-2049#32)).wf = false := by decide
theorem test_wf_s_high : (Instr.sw 1#5 0#5 2048#32).wf = false := by decide
theorem test_wf_b_odd : (Instr.beq 1#5 0#5 3#32).wf = false := by decide
theorem test_wf_b_high : (Instr.bne 1#5 0#5 4096#32).wf = false := by decide
theorem test_wf_b_low : (Instr.blt 1#5 0#5 (-4098#32)).wf = false := by decide
theorem test_wf_u : (Instr.lui 1#5 0x00000FFF#32).wf = false := by decide
theorem test_wf_j_odd : (Instr.jal 1#5 1#32).wf = false := by decide
theorem test_wf_j_high : (Instr.jal 1#5 1048576#32).wf = false := by decide
theorem test_wf_j_low : (Instr.jal 1#5 (-1048578#32)).wf = false := by decide
theorem test_wf_admits :
    (Instr.jalr 1#5 0#5 (-2048#32)).wf && (Instr.ori 1#5 0#5 2047#32).wf &&
    (Instr.bgeu 1#5 0#5 (-4096#32)).wf && (Instr.bge 1#5 0#5 4094#32).wf &&
    (Instr.auipc 1#5 0xFFFFF000#32).wf && (Instr.jal 1#5 (-1048576#32)).wf &&
    (Instr.jal 1#5 1048574#32).wf = true := by decide

/-! Decoding, section 2.1: one word for each instruction, by group. -/

theorem test_decode_upper_and_jumps :
    decode 0x123452B7#32 = .ok (.lui 5#5 0x12345000#32) ∧
    decode 0x00001317#32 = .ok (.auipc 6#5 0x00001000#32) ∧
    decode 0x010000EF#32 = .ok (.jal 1#5 16#32) ∧
    decode 0x00008067#32 = .ok (.jalr 0#5 1#5 0#32) ∧
    decode 0x30200073#32 = .ok (.mret) :=
  ⟨rfl, rfl, rfl, rfl, rfl⟩

theorem test_decode_branches :
    decode 0x00208463#32 = .ok (.beq 1#5 2#5 8#32) ∧
    decode 0xFE029EE3#32 = .ok (.bne 5#5 0#5 (-4#32)) ∧
    decode 0x0062C863#32 = .ok (.blt 5#5 6#5 16#32) ∧
    decode 0xFE62D8E3#32 = .ok (.bge 5#5 6#5 (-16#32)) ∧
    decode 0x0062E663#32 = .ok (.bltu 5#5 6#5 12#32) ∧
    decode 0x0062F0E3#32 = .ok (.bgeu 5#5 6#5 2048#32) :=
  ⟨rfl, rfl, rfl, rfl, rfl, rfl⟩

theorem test_decode_loads_stores :
    decode 0xFFF30283#32 = .ok (.lb 5#5 6#5 (-1#32)) ∧
    decode 0x00231283#32 = .ok (.lh 5#5 6#5 2#32) ∧
    decode 0x00812283#32 = .ok (.lw 5#5 2#5 8#32) ∧
    decode 0x00334283#32 = .ok (.lbu 5#5 6#5 3#32) ∧
    decode 0xFFE35283#32 = .ok (.lhu 5#5 6#5 (-2#32)) ∧
    decode 0x005300A3#32 = .ok (.sb 5#5 6#5 1#32) ∧
    decode 0xFE531F23#32 = .ok (.sh 5#5 6#5 (-2#32)) ∧
    decode 0x00512623#32 = .ok (.sw 5#5 2#5 12#32) :=
  ⟨rfl, rfl, rfl, rfl, rfl, rfl, rfl, rfl⟩

theorem test_decode_op_imm :
    decode 0xFFF00293#32 = .ok (.addi 5#5 0#5 (-1#32)) ∧
    decode 0x01F31293#32 = .ok (.slli 5#5 6#5 31#5) ∧
    decode 0xFFF32293#32 = .ok (.slti 5#5 6#5 (-1#32)) ∧
    decode 0x00133293#32 = .ok (.sltiu 5#5 6#5 1#32) ∧
    decode 0xFFF34293#32 = .ok (.xori 5#5 6#5 (-1#32)) ∧
    decode 0x00435293#32 = .ok (.srli 5#5 6#5 4#5) ∧
    decode 0x40435293#32 = .ok (.srai 5#5 6#5 4#5) ∧
    decode 0x0F036293#32 = .ok (.ori 5#5 6#5 240#32) ∧
    decode 0x7FF37293#32 = .ok (.andi 5#5 6#5 2047#32) :=
  ⟨rfl, rfl, rfl, rfl, rfl, rfl, rfl, rfl, rfl⟩

theorem test_decode_op :
    decode 0x007302B3#32 = .ok (.add 5#5 6#5 7#5) ∧
    decode 0x407302B3#32 = .ok (.sub 5#5 6#5 7#5) ∧
    decode 0x007312B3#32 = .ok (.sll 5#5 6#5 7#5) ∧
    decode 0x007322B3#32 = .ok (.slt 5#5 6#5 7#5) ∧
    decode 0x007332B3#32 = .ok (.sltu 5#5 6#5 7#5) ∧
    decode 0x007342B3#32 = .ok (.xor 5#5 6#5 7#5) ∧
    decode 0x007352B3#32 = .ok (.srl 5#5 6#5 7#5) ∧
    decode 0x407352B3#32 = .ok (.sra 5#5 6#5 7#5) ∧
    decode 0x007362B3#32 = .ok (.or 5#5 6#5 7#5) ∧
    decode 0x007372B3#32 = .ok (.and 5#5 6#5 7#5) :=
  ⟨rfl, rfl, rfl, rfl, rfl, rfl, rfl, rfl, rfl, rfl⟩

/-! The extreme immediates and the bits that travel, section 2.1. -/

theorem test_immediates :
    immI 0x7FF37293#32 = 0x000007FF#32 ∧
    immI 0x80000013#32 = 0xFFFFF800#32 ∧
    immS 0x80112023#32 = 0xFFFFF800#32 ∧
    immS 0x7E112FA3#32 = 0x000007FF#32 ∧
    immB 0x7E62CFE3#32 = 0x00000FFE#32 ∧
    immB 0x8062D063#32 = 0xFFFFF000#32 ∧
    immB 0x0062F0E3#32 = 0x00000800#32 ∧
    immU 0x800000B7#32 = 0x80000000#32 ∧
    immJ 0x7FFFF0EF#32 = 0x000FFFFE#32 ∧
    immJ 0x800000EF#32 = 0xFFF00000#32 ∧
    immJ 0x0010006F#32 = 0x00000800#32 ∧
    immJ 0xFF9FF06F#32 = 0xFFFFFFF8#32 :=
  ⟨rfl, rfl, rfl, rfl, rfl, rfl, rfl, rfl, rfl, rfl, rfl, rfl⟩

/-! Unlisted encodings, one for each case of R74, section 2.7. -/

theorem test_decode_unlisted :
    decode 0xFFFFFFFF#32 = .error .unlistedOpcode ∧
    decode 0x0FF0000F#32 = .error .unlistedOpcode ∧
    decode 0x00001067#32 = .error .unlistedJalr ∧
    decode 0x00002063#32 = .error .unlistedBranch ∧
    decode 0x00006003#32 = .error .unlistedLoad ∧
    decode 0x00003023#32 = .error .unlistedStore ∧
    decode 0x02031293#32 = .error .unlistedShift ∧
    decode 0x40031293#32 = .error .unlistedShift ∧
    decode 0x20035293#32 = .error .unlistedShift ∧
    decode 0x027302B3#32 = .error .unlistedOp ∧
    decode 0x407312B3#32 = .error .unlistedOp ∧
    decode 0x00000073#32 = .error .unlistedSystem ∧
    decode 0x302000F3#32 = .error .unlistedSystem ∧
    decode 0x30208073#32 = .error .unlistedSystem :=
  ⟨rfl, rfl, rfl, rfl, rfl, rfl, rfl, rfl, rfl, rfl, rfl, rfl, rfl, rfl⟩

theorem test_decode_truncated : decodeBytes [0x13#8, 0x00#8, 0x00#8] = .error .truncated := rfl

theorem test_decode_table_word : decodeTableWord 32 0x00100013 = some (.addi 0#5 0#5 1#32) := rfl

theorem test_encode_word : encode (.bne 5#5 0#5 (-4#32)) = 0xFE029EE3#32 := by decide

/-! One step of each instruction. Upper immediates and jumps, sections 2.2 and 2.3. -/

theorem test_lui : stepReg (ready 0x100#32 0xFFFFF537#32 []) 10#5
    = some (0xFFFFF000#32, 0x104#32) := by decide

theorem test_lui_x0 : stepReg (ready 0x100#32 0x12345037#32 []) 0#5
    = some (0#32, 0x104#32) := by decide

theorem test_auipc_wraps : stepReg (ready 0xFFFFF004#32 0x00001297#32 []) 5#5
    = some (4#32, 0xFFFFF008#32) := by decide

theorem test_jal : stepReg (ready 0x14#32 0x010000EF#32 []) 1#5
    = some (0x18#32, 0x24#32) := by decide

theorem test_jal_wraps : stepReg (ready 0xFFFFFFFC#32 0x008000EF#32 []) 1#5
    = some (0#32, 4#32) := by decide

theorem test_jalr_same_register : stepReg (ready 0x100#32 0x008080E7#32 [(1#5, 0x200#32)]) 1#5
    = some (0x104#32, 0x208#32) := by decide

theorem test_jalr_keeps_bit_0 : stepFault (ready 0x100#32 0x001280E7#32 [(5#5, 0x201#32)])
    = some (.misalignedTarget 0x202#32) := by decide

/-! Branches, section 2.3: taken or not, `x5` and `x6` compared, displacement 16. -/

theorem test_beq_taken : stepReg (ready 0x100#32 0x00628863#32 [(5#5, 0xFFFFFFFF#32), (6#5, 0xFFFFFFFF#32)]) 0#5
    = some (0#32, 0x110#32) := by decide

theorem test_beq_not_taken : stepReg (ready 0x100#32 0x00628863#32 [(5#5, 1#32), (6#5, 2#32)]) 0#5
    = some (0#32, 0x104#32) := by decide

theorem test_bne_taken : stepReg (ready 0x100#32 0x00629863#32 [(5#5, 1#32), (6#5, 2#32)]) 0#5
    = some (0#32, 0x110#32) := by decide

theorem test_bne_not_taken : stepReg (ready 0x100#32 0x00629863#32 [(5#5, 0xFFFFFFFF#32), (6#5, 0xFFFFFFFF#32)]) 0#5
    = some (0#32, 0x104#32) := by decide

theorem test_blt_taken : stepReg (ready 0x100#32 0x0062C863#32 [(5#5, 0x80000000#32), (6#5, 0x7FFFFFFF#32)]) 0#5
    = some (0#32, 0x110#32) := by decide

theorem test_blt_not_taken : stepReg (ready 0x100#32 0x0062C863#32 [(5#5, 0#32), (6#5, 0xFFFFFFFF#32)]) 0#5
    = some (0#32, 0x104#32) := by decide

theorem test_bge_taken : stepReg (ready 0x100#32 0x0062D863#32 [(5#5, 0#32), (6#5, 0#32)]) 0#5
    = some (0#32, 0x110#32) := by decide

theorem test_bge_not_taken : stepReg (ready 0x100#32 0x0062D863#32 [(5#5, 0xFFFFFFFF#32), (6#5, 0#32)]) 0#5
    = some (0#32, 0x104#32) := by decide

theorem test_bltu_taken : stepReg (ready 0x100#32 0x0062E863#32 [(5#5, 0#32), (6#5, 0xFFFFFFFF#32)]) 0#5
    = some (0#32, 0x110#32) := by decide

theorem test_bltu_not_taken : stepReg (ready 0x100#32 0x0062E863#32 [(5#5, 0x80000000#32), (6#5, 0x7FFFFFFF#32)]) 0#5
    = some (0#32, 0x104#32) := by decide

theorem test_bgeu_taken : stepReg (ready 0x100#32 0x0062F863#32 [(5#5, 0xFFFFFFFF#32), (6#5, 0#32)]) 0#5
    = some (0#32, 0x110#32) := by decide

theorem test_bgeu_not_taken : stepReg (ready 0x100#32 0x0062F863#32 [(5#5, 0x7FFFFFFF#32), (6#5, 0x80000000#32)]) 0#5
    = some (0#32, 0x104#32) := by decide

/-! Register-register operations, section 2.4; the shift amounts are of rows marked C1. -/

theorem test_add : stepReg (ready 0x100#32 0x007302B3#32 [(6#5, 0x7FFFFFFF#32), (7#5, 1#32)]) 5#5
    = some (0x80000000#32, 0x104#32) := by decide

theorem test_sub : stepReg (ready 0x100#32 0x407302B3#32 [(6#5, 0x80000000#32), (7#5, 1#32)]) 5#5
    = some (0x7FFFFFFF#32, 0x104#32) := by decide

theorem test_sll : stepReg (ready 0x100#32 0x007312B3#32 [(6#5, 0x12345678#32), (7#5, 0x24#32)]) 5#5
    = some (0x23456780#32, 0x104#32) := by decide

theorem test_slt : stepReg (ready 0x100#32 0x007322B3#32 [(6#5, 0x80000000#32), (7#5, 0x7FFFFFFF#32)]) 5#5
    = some (1#32, 0x104#32) := by decide

theorem test_sltu : stepReg (ready 0x100#32 0x007332B3#32 [(6#5, 1#32), (7#5, 0xFFFFFFFF#32)]) 5#5
    = some (1#32, 0x104#32) := by decide

theorem test_xor : stepReg (ready 0x100#32 0x007342B3#32 [(6#5, 0x12345678#32), (7#5, 0x24#32)]) 5#5
    = some (0x1234565C#32, 0x104#32) := by decide

theorem test_srl : stepReg (ready 0x100#32 0x007352B3#32 [(6#5, 0xDEADBEEF#32), (7#5, 0x1F#32)]) 5#5
    = some (1#32, 0x104#32) := by decide

theorem test_sra : stepReg (ready 0x100#32 0x407352B3#32 [(6#5, 0x80000000#32), (7#5, 0x7FFFFFFF#32)]) 5#5
    = some (0xFFFFFFFF#32, 0x104#32) := by decide

theorem test_or : stepReg (ready 0x100#32 0x007362B3#32 [(6#5, 0xDEADBEEF#32), (7#5, 0x1F#32)]) 5#5
    = some (0xDEADBEFF#32, 0x104#32) := by decide

theorem test_and : stepReg (ready 0x100#32 0x007372B3#32 [(6#5, 0xDEADBEEF#32), (7#5, 0x1F#32)]) 5#5
    = some (0xF#32, 0x104#32) := by decide

theorem test_add_same_register : stepReg (ready 0x100#32 0x005282B3#32 [(5#5, 0x40000001#32)]) 5#5
    = some (0x80000002#32, 0x104#32) := by decide

theorem test_sra_shift_32 : stepReg (ready 0x100#32 0x407352B3#32 [(6#5, 0xDEADBEEF#32), (7#5, 0x20#32)]) 5#5
    = some (0xDEADBEEF#32, 0x104#32) := by decide

/-! Register-immediate operations, section 2.5. -/

theorem test_addi : stepReg (ready 0x100#32 0xFFF30293#32 [(6#5, 0x80000000#32)]) 5#5
    = some (0x7FFFFFFF#32, 0x104#32) := by decide

theorem test_slti : stepReg (ready 0x100#32 0x00132293#32 [(6#5, 0xFFFFFFFF#32)]) 5#5
    = some (1#32, 0x104#32) := by decide

theorem test_sltiu : stepReg (ready 0x100#32 0x80033293#32 [(6#5, 0x000007FF#32)]) 5#5
    = some (1#32, 0x104#32) := by decide

theorem test_xori : stepReg (ready 0x100#32 0x80034293#32 [(6#5, 0#32)]) 5#5
    = some (0xFFFFF800#32, 0x104#32) := by decide

theorem test_ori : stepReg (ready 0x100#32 0x0F036293#32 [(6#5, 0x12345678#32)]) 5#5
    = some (0x123456F8#32, 0x104#32) := by decide

theorem test_andi : stepReg (ready 0x100#32 0x80037293#32 [(6#5, 0x80000000#32)]) 5#5
    = some (0x80000000#32, 0x104#32) := by decide

theorem test_slli : stepReg (ready 0x100#32 0x01031293#32 [(6#5, 0xDEADBEEF#32)]) 5#5
    = some (0xBEEF0000#32, 0x104#32) := by decide

theorem test_srli : stepReg (ready 0x100#32 0x00435293#32 [(6#5, 0xDEADBEEF#32)]) 5#5
    = some (0x0DEADBEE#32, 0x104#32) := by decide

theorem test_srai : stepReg (ready 0x100#32 0x40435293#32 [(6#5, 0xDEADBEEF#32)]) 5#5
    = some (0xFDEADBEE#32, 0x104#32) := by decide

theorem test_addi_nop : stepReg (ready 0x100#32 0x00000013#32 [(5#5, 7#32)]) 5#5
    = some (7#32, 0x104#32) := by decide

/-! Loads and stores, section 2.6. -/

theorem test_lb : stepReg (at26 0xFFF38283#32 [(6#5, 0x1000#32), (7#5, 0x1008#32)]) 5#5
    = some (0xFFFFFF89#32, 0x104#32) := by decide

theorem test_lbu : stepReg (at26 0x00034283#32 [(6#5, 0x1000#32), (7#5, 0x1008#32)]) 5#5
    = some (0x00000080#32, 0x104#32) := by decide

theorem test_lh : stepReg (at26 0x00431283#32 [(6#5, 0x1000#32), (7#5, 0x1008#32)]) 5#5
    = some (0xFFFFCDEF#32, 0x104#32) := by decide

theorem test_lhu : stepReg (at26 0xFFE3D283#32 [(6#5, 0x1000#32), (7#5, 0x1008#32)]) 5#5
    = some (0x000089AB#32, 0x104#32) := by decide

theorem test_lw_same_register : stepReg (at26 0x00432303#32 [(6#5, 0x1000#32), (7#5, 0x1008#32)]) 6#5
    = some (0x89ABCDEF#32, 0x104#32) := by decide

theorem test_lw_misaligned : stepFault (at26 0x00232003#32 [(6#5, 0x1000#32), (7#5, 0x1008#32)])
    = some (.misalignedAccess 0x1002#32 4) := by decide

theorem test_lb_unmapped : stepFault (at26 0x00038283#32 [(6#5, 0x1000#32), (7#5, 0x1008#32)])
    = some (.accessOutsideMap 0x1008#32 .read) := by decide

theorem test_sb : stepBytes (at26 0x005301A3#32 [(5#5, 0x11223344#32), (6#5, 0x1000#32)])
    = some [0x80#8, 0x7F#8, 0xFF#8, 0x44#8, 0xEF#8, 0xCD#8, 0xAB#8, 0x89#8] := by decide

theorem test_sh : stepBytes (at26 0x00531123#32 [(5#5, 0x11223344#32), (6#5, 0x1000#32)])
    = some [0x80#8, 0x7F#8, 0x44#8, 0x33#8, 0xEF#8, 0xCD#8, 0xAB#8, 0x89#8] := by decide

theorem test_sw : stepBytes (at26 0x00532223#32 [(5#5, 0x11223344#32), (6#5, 0x1000#32)])
    = some [0x80#8, 0x7F#8, 0xFF#8, 0x00#8, 0x44#8, 0x33#8, 0x22#8, 0x11#8] := by decide

theorem test_sw_unmapped : stepFault (at26 0x80532023#32 [(5#5, 0x11223344#32), (6#5, 0x1000#32)])
    = some (.accessOutsideMap 0x800#32 .write) := by decide

/-! MRET and the interrupt entry, section 2.8; faults at fetch, section 2.9. -/

theorem test_mret : stepTrap { ready 0xC#32 0x30200073#32 [] with mepc := 0x20#32, ni := true }
    = some (0x20#32, false, 0x20#32) := by decide

theorem test_mret_request : stepTrap
    { ready 0xC#32 0x30200073#32 [] with mepc := 0x20#32, ni := true, irq := [true] }
    = some (0x20#32, false, 0x20#32) := by decide

theorem test_entry : stepTrap { ready 0x100#32 0x00100293#32 [] with irq := [true] }
    = some (4#32, true, 0x104#32) := by decide

theorem test_entry_masked : stepTrap
    { ready 0x100#32 0x00100293#32 [] with irq := [true], ni := true, mepc := 0x20#32 }
    = some (0x104#32, true, 0x20#32) := by decide

theorem test_entry_at_branch : stepTrap { ready 0x100#32 0xFE000CE3#32 [] with irq := [true] }
    = some (4#32, true, 0xF8#32) := by decide

theorem test_entry_at_branch_not_taken :
    stepTrap { ready 0x100#32 0xFE001CE3#32 [] with irq := [true] }
    = some (4#32, true, 0x104#32) := by decide

theorem test_fault_takes_no_interrupt :
    stepFault { ready 0x100#32 0x002000EF#32 [] with irq := [true] }
    = some (.misalignedTarget 0x102#32) := by decide

theorem test_fetch_unmapped : stepFault { at26 0x00000013#32 [] with pc := 0x200#32 }
    = some (.accessOutsideMap 0x200#32 .fetch) := by decide

theorem test_fetch_misaligned : stepFault { State.reset with pc := 2#32 }
    = some (.misalignedTarget 2#32) := by decide

theorem test_fetch_illegal : stepFault (ready 0#32 0x00100073#32 [])
    = some (.illegalInstruction 0x00100073#32) := by decide

theorem test_fetch_word_runs : stepReg (State.reset.withFetchWord 32 0x00100293) 5#5
    = some (1#32, 4#32) := by decide

theorem test_fetch_modified :
    stepFault { ready 0x108#32 0x00000013#32 [] with stored := [0x10B] }
    = some (.fetchOfModifiedCode 0x108#32) := by decide

theorem test_fetch_modified_coherent :
    stepReg { ready 0x108#32 0x00000013#32 [] with
      stored := [0x10B], plat := { Config.platform with smc := .coherent } } 5#5
    = some (0#32, 0x10C#32) := by decide

/-! Witnesses: for each obligation with hypotheses, a state and operands that meet all of them together; one for
each clause, at a boundary value where the clause has a range. -/

/-- `ADDI x5, x0, 1` about to run at 0x100. -/
def addiState : State := ready 0x100#32 0x00100293#32 []

/-- The same with a request present while it executes. -/
def requestState : State := { addiState with irq := [true] }

/-- MRET about to run at 0xC, in a handler that returns to 0x20. -/
def mretState : State := { ready 0xC#32 0x30200073#32 [] with mepc := 0x20#32, ni := true }

/-- A state whose addresses 0x1000 to 0x1003 are a device. -/
def deviceState : State :=
  { ready 0x100#32 0x00000013#32 [(6#5, 0x1000#32)] with
    plat := { Config.platform with map :=
      [⟨0x1000, 4, .device, true, true, false⟩, Config.wholeSpace] } }

theorem addiState_inv : addiState.Inv :=
  ⟨by decide, by decide, by decide, by decide, by decide⟩

theorem witness_ResetLeavesTheGivenValues : Memory.get [(8, 1#8)] 4 = none := rfl

theorem witness_ResetMeetsTheInvariant :
    ({ Config.platform with resetPc := 0xFFFFFFFC#32 } : Platform).resetPc.toNat % 4 = 0 ∧
    Memory.wf [(0, 0x13#8), (4294967295, 1#8)] = true := by decide

theorem witness_StepKeepsTheInvariant : addiState.Inv ∧ ∃ t, step addiState = .next t :=
  ⟨addiState_inv, _, rfl⟩

theorem witness_DecodeOfEncodeIsIdentity :
    (Instr.jal 31#5 (-1048576#32)).wf = true ∧ (Instr.bge 31#5 31#5 4094#32).wf = true ∧
    (Instr.sb 31#5 31#5 (-2048#32)).wf = true ∧ (Instr.lui 31#5 0xFFFFF000#32).wf = true := by
  decide

theorem witness_EncodeOfDecodeIsIdentity :
    decode 0x8062D063#32 = .ok (.bge 5#5 6#5 (-4096#32)) := rfl

theorem witness_DecodeFollowsMaskAndMatch :
    decode 0x30200073#32 = .ok .mret ∧
    0x41F35293#32 &&& (Instr.srai 5#5 6#5 31#5).row.mask
      = (Instr.srai 5#5 6#5 31#5).row.pattern := ⟨rfl, rfl⟩

theorem witness_NoWordMatchesTwoRows :
    0x007302B3#32 &&& (Instr.add 5#5 6#5 7#5).row.mask = (Instr.add 5#5 6#5 7#5).row.pattern ∧
    0x007302B3#32 &&& (Instr.add 0#5 0#5 0#5).row.mask = (Instr.add 0#5 0#5 0#5).row.pattern :=
  ⟨rfl, rfl⟩

theorem word_matches_no_row : ∀ j : Instr, 0x302000F3#32 &&& j.row.mask ≠ j.row.pattern := by
  intro j h
  cases j <;> simp only [Instr.row] at h <;> revert h <;> decide

theorem witness_UnlistedWordIsIllegal :
    (∃ s1, (ready 0x100#32 0x302000F3#32 []).fetch = .ok (0x302000F3#32, s1)) ∧
    ∀ j : Instr, 0x302000F3#32 &&& j.row.mask ≠ j.row.pattern :=
  ⟨⟨_, rfl⟩, word_matches_no_row⟩

theorem witness_StepRunsTheDecodedInstruction :
    addiState.pc.toNat % 4 = 0 ∧ addiState.allows .fetch addiState.pc.toNat 4 = true ∧
    (∀ k, k < 4 → AddrSet.has addiState.stored (addiState.pc.toNat + k) = false) ∧
    addiState.touchesDevice addiState.pc.toNat 4 = false ∧
    decode (addiState.byteAt (addiState.pc.toNat + 3) ++ addiState.byteAt (addiState.pc.toNat + 2)
      ++ addiState.byteAt (addiState.pc.toNat + 1) ++ addiState.byteAt addiState.pc.toNat)
      = .ok (.addi 5#5 0#5 1#32) ∧
    addiState.fetch = .ok (0x00100293#32, addiState) :=
  ⟨by decide, by decide, by decide, by decide, rfl, rfl⟩

theorem witness_FetchChecksInOrder :
    ({ State.reset with pc := 0xFFFFFFFE#32 } : State).pc.toNat % 4 ≠ 0 ∧
    (deviceState.allowsByte .fetch (0x1000 + 3) = false ∧ 0x1000 % 4 = 0) ∧
    ((∀ k, k < 4 → addiState.allowsByte .fetch (addiState.pc.toNat + k) = true) ∧
      addiState.plat.smc = .refuse ∧
      AddrSet.has ({ addiState with stored := [0x103] } : State).stored (0x100 + 3) = true) ∧
    (∀ k, k < 4 → AddrSet.has addiState.stored (addiState.pc.toNat + k) = false) := by
  decide

theorem witness_FetchOfStoredWordFollowsPolicy :
    (∃ t, exec (.sw 5#5 6#5 8#32) (withRegs addiState [(6#5, 0x100#32)]) = .next t ∧
      t.allows .fetch 0x108 4 = true ∧ addiState.plat.smc = .refuse) ∧
    (∃ t, exec (.sw 5#5 6#5 8#32)
        { withRegs addiState [(6#5, 0x100#32)] with
          plat := { Config.platform with smc := .coherent } } = .next t ∧
      t.allows .fetch 0x108 4 = true) ∧
    addiState.touchesDevice 0x108 4 = false :=
  ⟨⟨_, rfl, by decide, rfl⟩, ⟨_, rfl, by decide⟩, by decide⟩

theorem witness_JumpAndLink :
    (addiState.pc + (0#1 ++ 0#8 ++ 0#1 ++ 8#10 ++ 0#1 : BitVec 21).signExtend 32).toNat % 4 = 0 ∧
    (addiState.pc + (1#1 ++ 0#8 ++ 0#1 ++ 0#10 ++ 0#1 : BitVec 21).signExtend 32).toNat % 4 = 0 := by
  decide

theorem witness_JumpAndLinkRegister :
    (addiState.readReg 0#5 + (2044#12 : BitVec 12).signExtend 32).toNat % 4 = 0 := by decide

theorem witness_BranchOnEquality :
    (addiState.readReg 1#5 = addiState.readReg 2#5 ∧
      (addiState.pc + (1#1 ++ 0#1 ++ 0#6 ++ 0#4 ++ 0#1 : BitVec 13).signExtend 32).toNat % 4 = 0) ∧
    (withRegs addiState [(1#5, 1#32)]).readReg 1#5
      ≠ (withRegs addiState [(1#5, 1#32)]).readReg 2#5 := by
  decide

theorem witness_BranchOnSignedOrder :
    ((withRegs addiState [(1#5, 0x80000000#32)]).readReg 1#5).toInt
      < ((withRegs addiState [(1#5, 0x80000000#32)]).readReg 2#5).toInt ∧
    (addiState.readReg 1#5).toInt ≥ (addiState.readReg 2#5).toInt ∧
    (addiState.pc + (0#1 ++ 0#1 ++ 0#6 ++ 8#4 ++ 0#1 : BitVec 13).signExtend 32).toNat % 4 = 0 := by
  decide

theorem witness_BranchOnUnsignedOrder :
    ((withRegs addiState [(2#5, 0x80000000#32)]).readReg 1#5).toNat
      < ((withRegs addiState [(2#5, 0x80000000#32)]).readReg 2#5).toNat ∧
    (addiState.readReg 1#5).toNat ≥ (addiState.readReg 2#5).toNat ∧
    (addiState.pc + (0#1 ++ 1#1 ++ 0#6 ++ 0#4 ++ 0#1 : BitVec 13).signExtend 32).toNat % 4 = 0 := by
  decide

/-- `x1 = 0x80000000`, every other register 0: it meets each comparison with `x2` in one order. -/
def orderState : State := withRegs addiState [(1#5, 0x80000000#32)]

theorem witness_MisalignedTargetFaults :
    (orderState.pc + 2#32).toNat % 4 ≠ 0 ∧
    orderState.readReg 2#5 = orderState.readReg 3#5 ∧
    orderState.readReg 1#5 ≠ orderState.readReg 2#5 ∧
    (orderState.readReg 1#5).toInt < (orderState.readReg 2#5).toInt ∧
    (orderState.readReg 2#5).toInt ≥ (orderState.readReg 1#5).toInt ∧
    (orderState.readReg 2#5).toNat < (orderState.readReg 1#5).toNat ∧
    (orderState.readReg 1#5).toNat ≥ (orderState.readReg 2#5).toNat ∧
    (orderState.readReg 1#5 + 1#32).toNat % 4 ≠ 0 ∧
    ({ orderState with mepc := 0x22#32 } : State).mepc.toNat % 4 ≠ 0 := by decide

theorem witness_LoadByte :
    (at26 0x13#32 [(6#5, 0x1008#32)]).allowsByte .read
      ((at26 0x13#32 [(6#5, 0x1008#32)]).readReg 6#5 + (-1#12 : BitVec 12).signExtend 32).toNat
      = true := by decide

theorem witness_LoadHalfWord :
    ((at26 0x13#32 [(6#5, 0x1008#32)]).readReg 6#5 + (-2#12 : BitVec 12).signExtend 32).toNat % 2
      = 0 ∧
    ∀ j, j < 2 → (at26 0x13#32 [(6#5, 0x1008#32)]).allowsByte .read (0x1006 + j) = true := by decide

theorem witness_LoadWord :
    ((at26 0x13#32 [(6#5, 0x1008#32)]).readReg 6#5 + (-4#12 : BitVec 12).signExtend 32).toNat % 4
      = 0 ∧
    ∀ j, j < 4 → (at26 0x13#32 [(6#5, 0x1008#32)]).allowsByte .read (0x1004 + j) = true := by decide

theorem witness_StoreByte :
    (at26 0x13#32 [(6#5, 0x1008#32)]).allowsByte .write
      ((at26 0x13#32 [(6#5, 0x1008#32)]).readReg 6#5
        + (127#7 ++ 31#5 : BitVec 12).signExtend 32).toNat = true := by decide

theorem witness_StoreHalfWord :
    ((at26 0x13#32 [(6#5, 0x1008#32)]).readReg 6#5
      + (127#7 ++ 30#5 : BitVec 12).signExtend 32).toNat % 2 = 0 ∧
    ∀ j, j < 2 → (at26 0x13#32 [(6#5, 0x1008#32)]).allowsByte .write (0x1006 + j) = true := by
  decide

theorem witness_StoreWord :
    ((at26 0x13#32 [(6#5, 0x1008#32)]).readReg 6#5
      + (127#7 ++ 28#5 : BitVec 12).signExtend 32).toNat % 4 = 0 ∧
    ∀ j, j < 4 → (at26 0x13#32 [(6#5, 0x1008#32)]).allowsByte .write (0x1004 + j) = true := by
  decide

theorem witness_MisalignedDataFaults :
    (addiState.readReg 1#5 + 1#32).toNat % 2 ≠ 0 ∧ (addiState.readReg 1#5 + 2#32).toNat % 4 ≠ 0 := by
  decide

theorem witness_UnmappedDataFaults :
    (at26 0x13#32 []).allowsByte .read (0x1008 + 0) = false ∧
    (at26 0x13#32 []).allowsByte .write (0x1008 + 3) = false ∧
    (0x1008 % 1 = 0 ∧ 0x1008 % 2 = 0 ∧ 0x1008 % 4 = 0) := by decide

theorem witness_LoadToX0StillAccesses :
    (deviceState.allowsByte .read 0x1003 = true ∧ deviceState.isDevice 0x1003 = true) ∧
    (deviceState.allows .read 0x1002 2 = true ∧ deviceState.touchesDevice 0x1002 2 = true) ∧
    (deviceState.allows .read 0x1000 4 = true ∧ deviceState.touchesDevice 0x1000 4 = true) ∧
    deviceState.readReg 6#5 + 0#32 = 0x1000#32 := by decide

theorem witness_DeviceBytesAreDraws :
    deviceState.isDevice 0x1003 = true ∧ deviceState.isDevice 0x1004 = false := by decide

theorem witness_MemoryIsLittleEndian :
    deviceState.touchesDevice 0xFFE 2 = false ∧ deviceState.touchesDevice 0x1004 4 = false := by
  decide

theorem witness_LoadReturnsTheLatestStore :
    (∃ t, exec (.sw 5#5 6#5 4#32) deviceState = .next t) ∧
    deviceState.allows .read (deviceState.readReg 6#5 + 4#32).toNat 4 = true ∧
    deviceState.touchesDevice (deviceState.readReg 6#5 + 4#32).toNat 4 = false :=
  ⟨⟨_, rfl⟩, by decide, by decide⟩

theorem witness_CanonicalMemoryIsUnique :
    Memory.wf [(0, 1#8), (4294967295, 2#8)] = true := by decide

theorem witness_RequestIsTakenAfterTheInstruction :
    ∃ s1 s2, requestState.fetch = .ok (0x00100293#32, s1) ∧
      decode 0x00100293#32 = .ok (.addi 5#5 0#5 1#32) ∧ exec (.addi 5#5 0#5 1#32) s1 = .next s2 ∧
      requestState.irq = true :: [] ∧ requestState.ni = false :=
  ⟨_, _, rfl, rfl, rfl, rfl, rfl⟩

theorem witness_NoEntryWhenMaskedOrQuiet :
    (∃ s1 s2, addiState.fetch = .ok (0x00100293#32, s1) ∧
      decode 0x00100293#32 = .ok (.addi 5#5 0#5 1#32) ∧ exec (.addi 5#5 0#5 1#32) s1 = .next s2 ∧
      addiState.irqNow = false) ∧
    (∃ s1 s2, ({ requestState with ni := true } : State).fetch = .ok (0x00100293#32, s1) ∧
      exec (.addi 5#5 0#5 1#32) s1 = .next s2) :=
  ⟨⟨_, _, rfl, rfl, rfl, rfl⟩, ⟨_, _, rfl, rfl⟩⟩

theorem witness_ReturnFromInterrupt :
    mretState.mepc.toNat % 4 = 0 ∧ ∃ t, exec (.addi 5#5 0#5 1#32) addiState = .next t :=
  ⟨by decide, _, rfl⟩

theorem witness_RequestDuringMret :
    (∃ s1, ({ mretState with irq := [true] } : State).fetch = .ok (0x30200073#32, s1)) ∧
    (∃ s1, ({ mretState with irq := [true], ni := false } : State).fetch
      = .ok (0x30200073#32, s1)) ∧
    ({ mretState with irq := [true] } : State).irqNow = true ∧ mretState.mepc.toNat % 4 = 0 :=
  ⟨⟨_, rfl⟩, ⟨_, rfl⟩, rfl, by decide⟩

theorem witness_HandlerReturnsWhereItWasTaken :
    ∃ s1 s2 t t1, (requestState.loadBytes 4 (tableBytes 32 0x30200073)).fetch
        = .ok (0x00100293#32, s1) ∧
      exec (.addi 5#5 0#5 1#32) s1 = .next s2 ∧
      (requestState.loadBytes 4 (tableBytes 32 0x30200073)).irqNow = true ∧
      (requestState.loadBytes 4 (tableBytes 32 0x30200073)).ni = false ∧
      step (requestState.loadBytes 4 (tableBytes 32 0x30200073)) = .next t ∧
      t.fetch = .ok (0x30200073#32, t1) :=
  ⟨_, _, _, _, rfl, rfl, rfl, rfl, rfl, rfl⟩

theorem witness_MepcOnlyEntryWritesOnlyMretReads :
    (∃ t, exec (.sw 5#5 6#5 0#32) addiState = .next t) ∧ (∃ t, step requestState = .next t) ∧
    Instr.addi 5#5 0#5 1#32 ≠ .mret ∧ (0xFFFFFFFC#32 : Word).toNat % 4 = 0 :=
  ⟨⟨_, rfl⟩, ⟨_, rfl⟩, by decide, by decide⟩

theorem witness_NiOnlyEntrySetsOnlyMretClears :
    (∃ t, step requestState = .next t ∧ requestState.ni = false ∧ t.ni = true) ∧
    (∃ t, step mretState = .next t ∧ mretState.ni = true ∧ t.ni = false) ∧
    Instr.lui 5#5 0#32 ≠ .mret :=
  ⟨⟨_, rfl, rfl, rfl⟩, ⟨_, rfl, rfl, rfl⟩, by decide⟩

theorem witness_OnlyNamedRegistersMatter : (31#5 : RegId) ∉ namedRegs (.add 5#5 6#5 7#5) := by
  decide

theorem witness_X0IsHardwiredToZero : (31#5 : RegId) ≠ 0#5 ∧ (1#5 : RegId) ≠ 31#5 := by decide

end Sys2Proof.Tests
end

section
/-! PROOFS. Updates of the state that an instruction cannot see, and R28: `mepc` is written by the interrupt entry
alone and read by MRET alone. -/

namespace Sys2Proof.Machine

/-! An update that no operation sees: each operation before or after it does the same. -/

/-- The update `f` of the state is not seen by an instruction that names only the registers `regs` (and is not
MRET): it keeps what such an instruction reads, and commutes with each way in which it writes. -/
structure InvisibleTo (regs : List RegId) (f : State → State) : Prop where
  pc_eq : ∀ s, (f s).pc = s.pc
  plat_eq : ∀ s, (f s).plat = s.plat
  mem_eq : ∀ s, (f s).mem = s.mem
  draws_eq : ∀ s, (f s).draws = s.draws
  readReg_eq : ∀ s r, r ∈ regs → (f s).readReg r = s.readReg r
  setPc_comm : ∀ s t, (f s).setPc t = f (s.setPc t)
  writeReg_comm : ∀ s r v, r ∈ regs → (f s).writeReg r v = f (s.writeReg r v)
  noteAccess_comm : ∀ s a n e, (f s).noteAccess a n e = f (s.noteAccess a n e)
  writeByte_comm : ∀ s a b, (f s).writeByte a b = f (s.writeByte a b)

namespace InvisibleTo

variable {regs : List RegId} {f : State → State} (hf : InvisibleTo regs f) (s : State)
include hf

/-! What is read. -/

theorem readByte_eq (a : Nat) : (f s).readByte a = s.readByte a := by
  simp only [State.readByte, State.isDevice_congr (hf.plat_eq s), hf.draws_eq,
    State.byteAt_congr (hf.mem_eq s)]

theorem read8_eq (a : Nat) : (f s).read8 a = s.read8 a := hf.readByte_eq s a

theorem read16_eq (a : Nat) : (f s).read16 a = s.read16 a := by
  simp only [State.read16, hf.readByte_eq]

theorem read32_eq (a : Nat) : (f s).read32 a = s.read32 a := by
  simp only [State.read32, hf.readByte_eq]

theorem effAddr_eq {rs1 : RegId} (h : rs1 ∈ regs) (imm : Word) :
    (f s).effAddr rs1 imm = s.effAddr rs1 imm := by
  simp only [State.effAddr, hf.readReg_eq s rs1 h]

theorem pcRel_eq (imm : Word) : (f s).pcRel imm = s.pcRel imm := by
  simp only [State.pcRel, hf.pc_eq]

theorem shiftAmount_eq {rs2 : RegId} (h : rs2 ∈ regs) :
    (f s).shiftAmount rs2 = s.shiftAmount rs2 := by
  simp only [State.shiftAmount, hf.readReg_eq s rs2 h]

theorem checkAccess_eq (k : AccessKind) (addr : Word) (n : Nat) :
    (f s).checkAccess k addr n = s.checkAccess k addr n := by
  simp only [State.checkAccess, State.allows_congr (hf.plat_eq s)]

/-! What is written. -/

theorem advance_comm : (f s).advance = f s.advance := by
  simp only [State.advance_eq, hf.pc_eq, hf.setPc_comm]

theorem writeBytes_comm (a : Nat) (v : Word) (n : Nat) :
    (f s).writeBytes a v n = f (s.writeBytes a v n) := by
  induction n generalizing s a v with
  | zero => rfl
  | succ n ih => simp only [State.writeBytes, hf.writeByte_comm, ih]

/-! What the ends of an instruction answer. -/

theorem transfer_comm (t : Word) : (f s).transfer t = mapNext f (s.transfer t) := by
  unfold State.transfer
  split
  · simp only [mapNext, hf.setPc_comm]
  · rfl

theorem setResult_comm {rd : RegId} (h : rd ∈ regs) (v : Word) :
    (f s).setResult rd v = mapNext f (s.setResult rd v) := by
  simp only [State.setResult, mapNext, hf.writeReg_comm s rd v h, hf.advance_comm]

theorem jumpAndLink_comm {rd : RegId} (h : rd ∈ regs) (t : Word) :
    (f s).jumpAndLink rd t = mapNext f (s.jumpAndLink rd t) := by
  simp only [State.jumpAndLink, State.pcPlus4_eq, hf.pc_eq, hf.writeReg_comm s rd _ h,
    hf.transfer_comm]

theorem branchIf_comm (c : Bool) (imm : Word) :
    (f s).branchIf c imm = mapNext f (s.branchIf c imm) := by
  cases c with
  | false => simp only [State.branchIf, Bool.false_eq_true, if_false, mapNext, hf.advance_comm]
  | true => simp only [State.branchIf, if_true, hf.pcRel_eq, hf.transfer_comm]

theorem load_comm {rd : RegId} (h : rd ∈ regs) (addr : Word) (n : Nat) (value : State → Nat → Word)
    (hv : value (f s) addr.toNat = value s addr.toNat) :
    (f s).load rd addr n value = mapNext f (s.load rd addr n value) := by
  unfold State.load
  rw [hf.checkAccess_eq]
  cases s.checkAccess .read addr n with
  | some r => rfl
  | none =>
    simp only [mapNext, hf.noteAccess_comm, hv, hf.writeReg_comm _ rd _ h, hf.advance_comm]

theorem store_comm (addr : Word) (n : Nat) (v : Word) :
    (f s).store addr n v = mapNext f (s.store addr n v) := by
  unfold State.store
  rw [hf.checkAccess_eq]
  cases s.checkAccess .write addr n with
  | some r => rfl
  | none => simp only [mapNext, hf.noteAccess_comm, hf.writeBytes_comm, hf.advance_comm]

end InvisibleTo

/-- An instruction other than MRET means the same before and after an update that it does not see. -/
theorem InvisibleTo.exec_comm {i : Instr} {f : State → State} (hf : InvisibleTo (namedRegs i) f)
    (hi : i ≠ .mret) (s : State) : exec i (f s) = mapNext f (exec i s) := by
  cases i with
  | lui rd imm => exact hf.setResult_comm s (by simp [namedRegs]) _
  | auipc rd imm =>
    simp only [exec, execAuipc, hf.pcRel_eq]
    exact hf.setResult_comm s (by simp [namedRegs]) _
  | jal rd imm =>
    simp only [exec, execJal, hf.pcRel_eq]
    exact hf.jumpAndLink_comm s (by simp [namedRegs]) _
  | jalr rd rs1 imm =>
    simp only [exec, execJalr, hf.effAddr_eq s (rs1 := rs1) (by simp [namedRegs])]
    exact hf.jumpAndLink_comm s (by simp [namedRegs]) _
  | beq rs1 rs2 imm | bne rs1 rs2 imm | blt rs1 rs2 imm | bge rs1 rs2 imm | bltu rs1 rs2 imm
  | bgeu rs1 rs2 imm =>
    simp only [exec, execBeq, execBne, execBlt, execBge, execBltu, execBgeu,
      hf.readReg_eq s rs1 (by simp [namedRegs]), hf.readReg_eq s rs2 (by simp [namedRegs])]
    exact hf.branchIf_comm s _ _
  | lb rd rs1 imm | lh rd rs1 imm | lw rd rs1 imm | lbu rd rs1 imm | lhu rd rs1 imm =>
    simp only [exec, execLb, execLh, execLw, execLbu, execLhu,
      hf.effAddr_eq s (rs1 := rs1) (by simp [namedRegs])]
    exact hf.load_comm s (by simp [namedRegs]) _ _ _
      (by simp only [hf.read8_eq, hf.read16_eq, hf.read32_eq])
  | sb rs2 rs1 imm | sh rs2 rs1 imm | sw rs2 rs1 imm =>
    simp only [exec, execSb, execSh, execSw, hf.effAddr_eq s (rs1 := rs1) (by simp [namedRegs]),
      hf.readReg_eq s rs2 (by simp [namedRegs])]
    exact hf.store_comm s _ _ _
  | addi rd rs1 | slli rd rs1 | slti rd rs1 | sltiu rd rs1 | xori rd rs1 | srli rd rs1
  | srai rd rs1 | ori rd rs1 | andi rd rs1 =>
    simp only [exec, execAddi, execSlli, execSlti, execSltiu, execXori, execSrli, execSrai, execOri,
      execAndi, hf.readReg_eq s rs1 (by simp [namedRegs])]
    exact hf.setResult_comm s (by simp [namedRegs]) _
  | add rd rs1 rs2 | sub rd rs1 rs2 | sll rd rs1 rs2 | slt rd rs1 rs2 | sltu rd rs1 rs2
  | xor rd rs1 rs2 | srl rd rs1 rs2 | sra rd rs1 rs2 | or rd rs1 rs2 | and rd rs1 rs2 =>
    simp only [exec, execAdd, execSub, execSll, execSlt, execSltu, execXor, execSrl, execSra, execOr,
      execAnd, hf.readReg_eq s rs1 (by simp [namedRegs]), hf.readReg_eq s rs2 (by simp [namedRegs]),
      hf.shiftAmount_eq s (rs2 := rs2) (by simp [namedRegs])]
    exact hf.setResult_comm s (by simp [namedRegs]) _
  | mret => exact absurd rfl hi

/-! R28: who writes and who reads `mepc`. -/

/-- `mepc` is not seen, whatever registers an instruction names. -/
theorem invisibleTo_setMepc (regs : List RegId) (v : Word) :
    InvisibleTo regs (fun t => { t with mepc := v }) where
  pc_eq _ := rfl
  plat_eq _ := rfl
  mem_eq _ := rfl
  draws_eq _ := rfl
  readReg_eq _ _ _ := rfl
  setPc_comm _ _ := rfl
  writeReg_comm s r w _ := by unfold State.writeReg; split <;> rfl
  noteAccess_comm s a n e := by
    have hplat : ({ s with mepc := v } : State).plat = s.plat := rfl
    simp only [State.noteAccess, State.touchesDevice_congr hplat]
    split <;> rfl
  writeByte_comm _ _ _ := rfl

/-- No instruction changes `mepc`, MRET included. -/
theorem exec_keeps_mepc {i : Instr} {s t : State} (h : exec i s = .next t) : t.mepc = s.mepc := by
  cases exec_shape h with
  | result _ _ _ eq | jump _ _ _ _ eq | branch _ _ eq | load _ _ _ _ _ _ _ eq
  | store _ _ _ _ _ eq | mret _ _ eq => simp [eq]

/-- A fetch leaves `mepc` as it is. -/
theorem State.fetch_keeps_mepc {s s1 : State} {w : Word} (h : s.fetch = .ok (w, s1)) :
    s1.mepc = s.mepc := by
  obtain ⟨-, -, -, -, hs1⟩ := (State.fetch_ok_iff s s1 w).1 h
  rw [← hs1, State.noteAccess_mepc]

/-- The end of a step keeps `mepc`, or enters the interrupt, which saves `next_pc` there (R172). -/
theorem State.retire_mepc (s0 s1 : State) :
    (s0.retire s1).mepc = s1.mepc ∨
    ((s0.retire s1).ni = true ∧ (s0.retire s1).pc = 0x00000004#32 ∧
      (s0.retire s1).mepc = s1.pc) := by
  rcases s0.retire_cases s1 with ⟨-, -, he⟩ | ⟨-, he⟩
  · exact .inr (by simp [he])
  · exact .inl (by simp [he])

/-- MRET with a `mepc` that is a multiple of 4 is the return from the interrupt (R155, R175). -/
theorem exec_mret_aligned {s : State} (h : s.mepc.toNat % 4 = 0) :
    exec .mret s = .next s.returnFromInterrupt :=
  if_pos ((aligned_iff s.mepc 4).2 h)

end Sys2Proof.Machine

namespace Sys2Proof.Proofs

open Sys2Proof Sys2Proof.Machine

/-- Settles O51: the frame of every instruction by its shape, the step through its end, and the independence from
`mepc` as an update that no instruction but MRET sees. -/
theorem mepcOnlyEntryWritesOnlyMretReads : Obligations.MepcOnlyEntryWritesOnlyMretReads := by
  refine ⟨fun i s t h => exec_keeps_mepc h, fun s t h => ?_,
    fun i s v hi => (invisibleTo_setMepc _ v).exec_comm hi s,
    fun s v hv => ⟨_, exec_mret_aligned hv, rfl⟩⟩
  obtain ⟨w, s1, i, s2, hf, hd, he, rfl⟩ := (step_next_iff s t).1 h
  rcases s1.retire_mepc s2 with hkept | ⟨hni, hpc, hsaved⟩
  · exact .inl (by rw [hkept, exec_keeps_mepc he, State.fetch_keeps_mepc hf])
  · exact .inr ⟨hni, hpc, s1, s2, w, i, hf, hd, he, hsaved⟩

end Sys2Proof.Proofs
end

section
/-! PROOFS. The immediates bit by bit, against the table of immediates (`30_encoding.md` R62). -/

namespace Sys2Proof

/-! One bit of a value put together from slices. -/

/-- Sign extension of `n + 1` bits repeats bit `n` in every position above it. -/
theorem signExtend_bit {m : Nat} (x : BitVec m) (n : Nat) (hm : m = n + 1) {k : Nat} (hk : k < 32) :
    (x.signExtend 32).getLsbD k = x.getLsbD (min k n) := by
  subst hm
  rw [BitVec.getLsbD_signExtend, decide_eq_true hk, Bool.true_and]
  split
  · rw [Nat.min_eq_left (by omega)]
  · rw [Nat.min_eq_right (by omega), BitVec.msb_eq_getLsbD_last, Nat.add_sub_cancel]

theorem append_bit_low {m n k : Nat} {a : BitVec m} {b : BitVec n} (h : k < n) :
    (a ++ b).getLsbD k = b.getLsbD k := by
  rw [BitVec.getLsbD_append, if_pos h]

theorem append_bit_high {m n k : Nat} {a : BitVec m} {b : BitVec n} (h : n ≤ k) :
    (a ++ b).getLsbD k = a.getLsbD (k - n) := by
  rw [BitVec.getLsbD_append, if_neg (by omega)]

/-- Bit `k` of the slice of `w` that starts at bit `s` is the bit of `w` at `s + k`. -/
theorem slice_bit {n s l k j : Nat} (w : BitVec n) (hk : k < l) (hj : s + k = j) :
    (w.extractLsb' s l).getLsbD k = w.getLsbD j := by
  rw [BitVec.getLsbD_extractLsb', decide_eq_true hk, Bool.true_and, hj]

/-- The lowest part of a concatenation, a slice of `w`, holds the bits below its length. -/
theorem append_slice_bit {m n s l k j : Nat} {a : BitVec m} (w : BitVec n) (hk : k < l) (hj : s + k = j) :
    (a ++ w.extractLsb' s l).getLsbD k = w.getLsbD j :=
  (append_bit_low hk).trans (slice_bit w hk hj)

/-! The rows of the table. The cases of each proof are the columns of its row, from bit 0 up. In each, the parts of
the concatenation below the column are passed over, and the next part, a slice of the word, holds the bit; the
topmost part ends in inst[31], and answers for the sign bits too. -/

theorem immI_bit (w : Word) {k : Nat} (hk : k < 32) :
    (immI w).getLsbD k = if k < 11 then w.getLsbD (k + 20) else w.getLsbD 31 := by
  unfold immI
  rw [signExtend_bit _ 11 rfl hk]
  split <;> exact slice_bit w (by omega) (by omega)

theorem immS_bit (w : Word) {k : Nat} (hk : k < 32) :
    (immS w).getLsbD k =
      if k < 5 then w.getLsbD (k + 7) else if k < 11 then w.getLsbD (k + 20) else w.getLsbD 31 := by
  unfold immS
  rw [signExtend_bit _ 11 rfl hk]
  split_ifs with h4 h10
  · exact append_slice_bit w (by omega) (by omega)
  · rw [append_bit_high (by omega)]
    exact slice_bit w (by omega) (by omega)
  · rw [append_bit_high (by omega)]
    exact slice_bit w (by omega) (by omega)

theorem immB_bit (w : Word) {k : Nat} (hk : k < 32) :
    (immB w).getLsbD k =
      if k = 0 then false else if k < 5 then w.getLsbD (k + 7)
      else if k < 11 then w.getLsbD (k + 20) else if k = 11 then w.getLsbD 7
      else w.getLsbD 31 := by
  unfold immB
  rw [signExtend_bit _ 12 rfl hk]
  split_ifs with h0 h4 h10 h11
  · rw [append_bit_low (by omega), BitVec.getLsbD_zero]
  · rw [append_bit_high (by omega)]
    exact append_slice_bit w (by omega) (by omega)
  · iterate 2 rw [append_bit_high (by omega)]
    exact append_slice_bit w (by omega) (by omega)
  · iterate 3 rw [append_bit_high (by omega)]
    exact append_slice_bit w (by omega) (by omega)
  · iterate 4 rw [append_bit_high (by omega)]
    exact slice_bit w (by omega) (by omega)

theorem immU_bit (w : Word) {k : Nat} (hk : k < 32) :
    (immU w).getLsbD k = if k < 12 then false else w.getLsbD k := by
  unfold immU
  split_ifs with h
  · exact (append_bit_low h).trans BitVec.getLsbD_zero
  · exact (append_bit_high (by omega)).trans (slice_bit w (by omega) (by omega))

theorem immJ_bit (w : Word) {k : Nat} (hk : k < 32) :
    (immJ w).getLsbD k =
      if k = 0 then false else if k < 11 then w.getLsbD (k + 20)
      else if k = 11 then w.getLsbD 20 else if k < 20 then w.getLsbD k else w.getLsbD 31 := by
  unfold immJ
  rw [signExtend_bit _ 20 rfl hk]
  split_ifs with h0 h10 h11 h19
  · rw [append_bit_low (by omega), BitVec.getLsbD_zero]
  · rcases Nat.lt_or_ge k 5 with h4 | h5
    · rw [append_bit_high (by omega)]
      exact append_slice_bit w (by omega) (by omega)
    · iterate 2 rw [append_bit_high (by omega)]
      exact append_slice_bit w (by omega) (by omega)
  · iterate 3 rw [append_bit_high (by omega)]
    exact append_slice_bit w (by omega) (by omega)
  · iterate 4 rw [append_bit_high (by omega)]
    exact append_slice_bit w (by omega) (by omega)
  · iterate 5 rw [append_bit_high (by omega)]
    exact slice_bit w (by omega) (by omega)

/-! Bit 0 of a B- or J-immediate is no bit of the word. -/

theorem immB_even (w : Word) : (immB w).toNat % 2 = 0 :=
  Nat.mod_two_eq_zero_iff_testBit_zero.2 (immB_bit w (by decide))

theorem immJ_even (w : Word) : (immJ w).toNat % 2 = 0 :=
  Nat.mod_two_eq_zero_iff_testBit_zero.2 (immJ_bit w (by decide))

end Sys2Proof

namespace Sys2Proof.Proofs

open Sys2Proof

/-- Settles O10: the five rows of the table of R62, one lemma each, and the two that are even by their bit 0. -/
theorem immediatesFollowTheTable : Obligations.ImmediatesFollowTheTable := fun w =>
  ⟨fun _ => immI_bit w, fun _ => immS_bit w, fun _ => immB_bit w, fun _ => immU_bit w, fun _ => immJ_bit w,
    immB_even w, immJ_even w⟩

end Sys2Proof.Proofs
end

section
/-! PROOFS. LUI from its word to its effect (`40_upper_immediate.md` R100). -/

namespace Sys2Proof

/-- The opcode alone selects LUI; the word's other fields are its operands (R70). -/
theorem decode_of_lui_opcode {w : Word} (h : opcode w = 0b0110111#7) :
    decode w = .ok (.lui (rdField w) (immU w)) := by
  unfold decode
  rw [h]
  rfl

/-- The U-immediate of an encoded word whose immediate is given by its 20-bit field (R66). -/
theorem immU_encodeU_fields (imm : BitVec 20) (rd op) :
    immU (encodeU (imm ++ 0#12) rd op) = imm ++ 0#12 :=
  (immU_encodeU _ rd op).trans (immU_carried (immFitsU_fields imm))

theorem decode_lui_fields (rd : RegId) (imm : BitVec 20) :
    decode (imm ++ rd ++ 0b0110111#7) = .ok (.lui rd (imm ++ 0#12)) := by
  rw [← encodeU_fields, decode_of_lui_opcode (opcode_encodeU _ _ _), rdField_encodeU,
    immU_encodeU_fields]

end Sys2Proof

namespace Sys2Proof.Proofs

open Sys2Proof Sys2Proof.Machine

/-- Settles O24: the word is put together as format U and decoded by its fields; the effect of LUI is that of every
instruction whose one result goes to `rd`, here the field with twelve zeros below. -/
theorem loadUpperImmediate : Obligations.LoadUpperImmediate := by
  refine fun rd imm => ⟨decode_lui_fields rd imm, fun s => ?_⟩
  obtain ⟨t, hexec, hresult⟩ := s.setResult_result rd (imm ++ 0#12)
  exact ⟨t, imm ++ 0#12, hexec, hresult, upper_toNat imm⟩

end Sys2Proof.Proofs
end

section
/-! PROOFS. Register-immediate operations from their word to their effect (`43_op_imm.md` R130 to R139): decoding by
fields, the values of the operations bit by bit, and the instructions put together from the two. -/

namespace Sys2Proof

/-! Decoding: the opcode selects the group, `funct3` and for the shifts `funct7` the instruction (R68, R70). -/

theorem decode_of_opImm_opcode {w : Word} (h : opcode w = 0b0010011#7) : decode w = decodeOpImm w := by
  unfold decode
  rw [h]
  rfl

/-- The I-immediate of an encoded word whose immediate is given by its 12-bit field (R63). -/
theorem immI_encodeI_fields (imm : BitVec 12) (rs1 f3 rd op) :
    immI (encodeI (imm.signExtend 32) rs1 f3 rd op) = imm.signExtend 32 :=
  (immI_encodeI _ rs1 f3 rd op).trans (imm12_carried (immFits12_fields imm))

/-- An OP-IMM instruction `mk` that `funct3` alone selects is decoded from its format I with its own operands. -/
theorem decode_opImm_fields {f3 : BitVec 3} {mk : RegId → RegId → Word → Instr}
    (selected : ∀ w, funct3 w = f3 → decodeOpImm w = .ok (mk (rdField w) (rs1Field w) (immI w)))
    (rd rs1 : RegId) (imm : BitVec 12) :
    decode (imm ++ rs1 ++ f3 ++ rd ++ 0b0010011#7) = .ok (mk rd rs1 (imm.signExtend 32)) := by
  rw [← encodeI_fields, decode_of_opImm_opcode (opcode_encodeI _ _ _ _ _),
    selected _ (funct3_encodeI _ _ _ _ _), rdField_encodeI, rs1Field_encodeI, immI_encodeI_fields]

/-- A shift-immediate `mk`, selected by `funct3` and `funct7`, is decoded with the amount in `inst[24:20]`. -/
theorem decode_shiftImm_fields {f7 : BitVec 7} {f3 : BitVec 3} {mk : RegId → RegId → Shamt → Instr}
    (selected : ∀ w, funct3 w = f3 → funct7 w = f7 →
      decodeOpImm w = .ok (mk (rdField w) (rs1Field w) (rs2Field w)))
    (rd rs1 : RegId) (shamt : Shamt) :
    decode (f7 ++ shamt ++ rs1 ++ f3 ++ rd ++ 0b0010011#7) = .ok (mk rd rs1 shamt) := by
  change decode (encodeR f7 shamt rs1 f3 rd 0b0010011#7) = _
  rw [decode_of_opImm_opcode (opcode_encodeR _ _ _ _ _ _), selected _ (funct3_encodeR _ _ _ _ _ _)
    (funct7_encodeR _ _ _ _ _ _), rdField_encodeR, rs1Field_encodeR, rs2Field_encodeR]

theorem decodeOpImm_slti (w : Word) (h : funct3 w = 0b010#3) :
    decodeOpImm w = .ok (.slti (rdField w) (rs1Field w) (immI w)) := by
  simp only [decodeOpImm, h]

theorem decodeOpImm_xori (w : Word) (h : funct3 w = 0b100#3) :
    decodeOpImm w = .ok (.xori (rdField w) (rs1Field w) (immI w)) := by
  simp only [decodeOpImm, h]

theorem decodeOpImm_ori (w : Word) (h : funct3 w = 0b110#3) :
    decodeOpImm w = .ok (.ori (rdField w) (rs1Field w) (immI w)) := by
  simp only [decodeOpImm, h]

theorem decodeOpImm_andi (w : Word) (h : funct3 w = 0b111#3) :
    decodeOpImm w = .ok (.andi (rdField w) (rs1Field w) (immI w)) := by
  simp only [decodeOpImm, h]

theorem decodeOpImm_slli (w : Word) (h3 : funct3 w = 0b001#3) (h7 : funct7 w = 0b0000000#7) :
    decodeOpImm w = .ok (.slli (rdField w) (rs1Field w) (rs2Field w)) := by
  simp only [decodeOpImm, h3, h7]

theorem decodeOpImm_srli (w : Word) (h3 : funct3 w = 0b101#3) (h7 : funct7 w = 0b0000000#7) :
    decodeOpImm w = .ok (.srli (rdField w) (rs1Field w) (rs2Field w)) := by
  simp only [decodeOpImm, h3, h7]

theorem decodeOpImm_srai (w : Word) (h3 : funct3 w = 0b101#3) (h7 : funct7 w = 0b0100000#7) :
    decodeOpImm w = .ok (.srai (rdField w) (rs1Field w) (rs2Field w)) := by
  simp only [decodeOpImm, h3, h7]

end Sys2Proof

namespace Sys2Proof.Machine

/-! Values (R10, R151 f). -/

/-- What a signed set instruction writes. -/
theorem boolWord_cmpLt (a b : Word) :
    boolWord (cmpLt a b) = if a.toInt < b.toInt then 1#32 else 0#32 := by
  simp only [boolWord, cmpLt, decide_eq_true_eq]

theorem xorWord_bit (a b : Word) (k : Nat) :
    (xorWord a b).getLsbD k = (a.getLsbD k ^^ b.getLsbD k) := BitVec.getLsbD_xor

theorem orWord_bit (a b : Word) (k : Nat) :
    (orWord a b).getLsbD k = (a.getLsbD k || b.getLsbD k) := BitVec.getLsbD_or

theorem andWord_bit (a b : Word) (k : Nat) :
    (andWord a b).getLsbD k = (a.getLsbD k && b.getLsbD k) := BitVec.getLsbD_and

theorem shiftLeft_bit (a : Word) (n : Nat) {k : Nat} (hk : k < 32) :
    (shiftLeft a n).getLsbD k = if k < n then false else a.getLsbD (k - n) := by
  unfold shiftLeft
  rw [BitVec.getLsbD_shiftLeft]
  split_ifs with h <;> simp [h, hk]

theorem shiftRight_bit (a : Word) (n k : Nat) :
    (shiftRight a n).getLsbD k = if k + n < 32 then a.getLsbD (k + n) else false := by
  unfold shiftRight
  rw [BitVec.getLsbD_ushiftRight, Nat.add_comm n k]
  split_ifs with h
  · rfl
  · exact BitVec.getLsbD_of_ge a _ (by omega)

theorem shiftRightArith_bit (a : Word) (n : Nat) {k : Nat} (hk : k < 32) :
    (shiftRightArith a n).getLsbD k = if k + n < 32 then a.getLsbD (k + n) else a.getLsbD 31 := by
  unfold shiftRightArith
  rw [BitVec.getLsbD_sshiftRight, Nat.add_comm n k, BitVec.msb_eq_getLsbD_last,
    decide_eq_false (by omega : ¬ 32 ≤ k), Bool.not_false, Bool.true_and]

/-- An instruction whose one effect is `x[rd] <- v` (R130, R140), with what is known of `v`. -/
theorem State.setResult_of_value (s : State) (rd : RegId) {v : Word} {P : Word → Prop} (hv : P v) :
    ∃ t u, s.setResult rd v = .next t ∧ RegResult s t rd u ∧ P u := by
  obtain ⟨t, hexec, hresult⟩ := s.setResult_result rd v
  exact ⟨t, v, hexec, hresult, hv⟩

end Sys2Proof.Machine

namespace Sys2Proof.Proofs

open Sys2Proof Sys2Proof.Machine

/-- Settles O20: sign extension keeps the immediate's signed value, so comparing with the extended word compares with
the field. -/
theorem setOnLessThanImmediate : Obligations.SetOnLessThanImmediate := by
  refine fun rd rs1 imm => ⟨decode_opImm_fields decodeOpImm_slti rd rs1 imm, fun s => ?_⟩
  have hsext : (imm.signExtend 32).toInt = imm.toInt := BitVec.toInt_signExtend_of_le (by decide)
  rw [← hsext, ← boolWord_cmpLt]
  exact s.setResult_result rd _

/-- Settles O22: each operation works bit by bit, and bit `k` of the extended immediate is bit `min k 11` of its
field. -/
theorem bitwiseImmediate : Obligations.BitwiseImmediate := by
  refine fun rd rs1 imm => ⟨decode_opImm_fields decodeOpImm_xori rd rs1 imm,
    decode_opImm_fields decodeOpImm_ori rd rs1 imm, decode_opImm_fields decodeOpImm_andi rd rs1 imm, fun s => ?_⟩
  have himm : ∀ k, k < 32 → (imm.signExtend 32).getLsbD k = imm.getLsbD (min k 11) :=
    fun _ => signExtend_bit imm 11 rfl
  refine ⟨s.setResult_of_value rd fun k hk => ?xor, s.setResult_of_value rd fun k hk => ?or,
    s.setResult_of_value rd fun k hk => ?and⟩
  case xor => rw [xorWord_bit, himm k hk]
  case or => rw [orWord_bit, himm k hk]
  case and => rw [andWord_bit, himm k hk]

/-- Settles O23: the three shifts by the amount in `inst[24:20]`, each by the bit law of its operation. -/
theorem shiftImmediate : Obligations.ShiftImmediate := fun rd rs1 shamt =>
  ⟨decode_shiftImm_fields decodeOpImm_slli rd rs1 shamt, decode_shiftImm_fields decodeOpImm_srli rd rs1 shamt,
    decode_shiftImm_fields decodeOpImm_srai rd rs1 shamt, fun s =>
      ⟨s.setResult_of_value rd fun _ => shiftLeft_bit (s.readReg rs1) shamt.toNat,
        s.setResult_of_value rd fun k _ => shiftRight_bit (s.readReg rs1) shamt.toNat k,
        s.setResult_of_value rd fun _ => shiftRightArith_bit (s.readReg rs1) shamt.toNat⟩⟩

end Sys2Proof.Proofs
end

section
/-! PROOFS. Shifts right, comparisons and bitwise operations of two registers, from their word to their effect
(`44_op.md` R144 to R150): decoding by fields, the two values that the register-immediate laws leave open, and the
instructions put together from these. -/

namespace Sys2Proof

/-! Decoding: the opcode selects the group, `funct7` and `funct3` the instruction (R70, R140). -/

theorem decode_of_op_opcode {w : Word} (h : opcode w = 0b0110011#7) : decode w = decodeOp w := by
  unfold decode
  rw [h]
  rfl

/-- An OP instruction `mk`, selected by `funct7` and `funct3`, is decoded from its format R with its own operands. -/
theorem decode_op_fields {f7 : BitVec 7} {f3 : BitVec 3} {mk : RegId → RegId → RegId → Instr}
    (selected : ∀ w, funct7 w = f7 → funct3 w = f3 →
      decodeOp w = .ok (mk (rdField w) (rs1Field w) (rs2Field w)))
    (rd rs1 rs2 : RegId) :
    decode (f7 ++ rs2 ++ rs1 ++ f3 ++ rd ++ 0b0110011#7) = .ok (mk rd rs1 rs2) := by
  change decode (encodeR f7 rs2 rs1 f3 rd 0b0110011#7) = _
  rw [decode_of_op_opcode (opcode_encodeR _ _ _ _ _ _), selected _ (funct7_encodeR _ _ _ _ _ _)
    (funct3_encodeR _ _ _ _ _ _), rdField_encodeR, rs1Field_encodeR, rs2Field_encodeR]

theorem decodeOp_slt (w : Word) (h7 : funct7 w = 0b0000000#7) (h3 : funct3 w = 0b010#3) :
    decodeOp w = .ok (.slt (rdField w) (rs1Field w) (rs2Field w)) := by
  simp only [decodeOp, h7, h3]

theorem decodeOp_sltu (w : Word) (h7 : funct7 w = 0b0000000#7) (h3 : funct3 w = 0b011#3) :
    decodeOp w = .ok (.sltu (rdField w) (rs1Field w) (rs2Field w)) := by
  simp only [decodeOp, h7, h3]

theorem decodeOp_xor (w : Word) (h7 : funct7 w = 0b0000000#7) (h3 : funct3 w = 0b100#3) :
    decodeOp w = .ok (.xor (rdField w) (rs1Field w) (rs2Field w)) := by
  simp only [decodeOp, h7, h3]

theorem decodeOp_srl (w : Word) (h7 : funct7 w = 0b0000000#7) (h3 : funct3 w = 0b101#3) :
    decodeOp w = .ok (.srl (rdField w) (rs1Field w) (rs2Field w)) := by
  simp only [decodeOp, h7, h3]

theorem decodeOp_sra (w : Word) (h7 : funct7 w = 0b0100000#7) (h3 : funct3 w = 0b101#3) :
    decodeOp w = .ok (.sra (rdField w) (rs1Field w) (rs2Field w)) := by
  simp only [decodeOp, h7, h3]

theorem decodeOp_or (w : Word) (h7 : funct7 w = 0b0000000#7) (h3 : funct3 w = 0b110#3) :
    decodeOp w = .ok (.or (rdField w) (rs1Field w) (rs2Field w)) := by
  simp only [decodeOp, h7, h3]

theorem decodeOp_and (w : Word) (h7 : funct7 w = 0b0000000#7) (h3 : funct3 w = 0b111#3) :
    decodeOp w = .ok (.and (rdField w) (rs1Field w) (rs2Field w)) := by
  simp only [decodeOp, h7, h3]

end Sys2Proof

namespace Sys2Proof.Machine

/-! Values: the shift amount and the unsigned comparison. -/

/-- The low five bits of `x[rs2]`, as a number, are its remainder modulo 32. -/
theorem State.shiftAmount_eq_mod (s : State) (rs2 : RegId) :
    s.shiftAmount rs2 = (s.readReg rs2).toNat % 32 := by
  simp [State.shiftAmount]

/-- What an unsigned set instruction writes. -/
theorem boolWord_cmpLtu (a b : Word) :
    boolWord (cmpLtu a b) = if a.toNat < b.toNat then 1#32 else 0#32 := by
  simp only [boolWord, cmpLtu, decide_eq_true_eq]

end Sys2Proof.Machine

namespace Sys2Proof.Proofs

open Sys2Proof Sys2Proof.Machine

/-- Settles O16: both shifts by the bit law of their operation, the amount being `x[rs2]` modulo 32. -/
theorem shiftRightByRegister : Obligations.ShiftRightByRegister := by
  refine fun rd rs1 rs2 => ⟨decode_op_fields decodeOp_srl rd rs1 rs2, decode_op_fields decodeOp_sra rd rs1 rs2,
    fun s => ?_⟩
  rw [← s.shiftAmount_eq_mod rs2]
  exact ⟨s.setResult_of_value rd fun k _ => shiftRight_bit (s.readReg rs1) (s.shiftAmount rs2) k,
    s.setResult_of_value rd fun _ => shiftRightArith_bit (s.readReg rs1) (s.shiftAmount rs2)⟩

/-- Settles O17: the value written is the comparison's, 1 or 0, as signed or as unsigned numbers. -/
theorem setOnLessThan : Obligations.SetOnLessThan := by
  refine fun rd rs1 rs2 => ⟨decode_op_fields decodeOp_slt rd rs1 rs2, decode_op_fields decodeOp_sltu rd rs1 rs2,
    fun s => ?_⟩
  rw [← boolWord_cmpLt, ← boolWord_cmpLtu]
  exact ⟨s.setResult_result rd _, s.setResult_result rd _⟩

/-- Settles O18: each of the three operations works bit by bit on the two registers. -/
theorem bitwiseByRegister : Obligations.BitwiseByRegister := fun rd rs1 rs2 =>
  ⟨decode_op_fields decodeOp_xor rd rs1 rs2, decode_op_fields decodeOp_or rd rs1 rs2,
    decode_op_fields decodeOp_and rd rs1 rs2, fun s =>
      ⟨s.setResult_of_value rd fun k _ => xorWord_bit (s.readReg rs1) (s.readReg rs2) k,
        s.setResult_of_value rd fun k _ => orWord_bit (s.readReg rs1) (s.readReg rs2) k,
        s.setResult_of_value rd fun k _ => andWord_bit (s.readReg rs1) (s.readReg rs2) k⟩⟩

end Sys2Proof.Proofs
end

section
/-! PROOFS. The interrupt entry: what it changes and what it leaves as it was (`60_exceptions.md` R172, R173). -/

namespace Sys2Proof.Machine

/-- Everything but `ni`, `mepc` and `pc` stands through the interrupt entry (R173). -/
theorem State.takeInterrupt_frame (s : State) :
    SameRegs s s.takeInterrupt ∧ SameMemory s s.takeInterrupt ∧ SameDevices s s.takeInterrupt ∧
      SameInputs s s.takeInterrupt :=
  ⟨s.takeInterrupt_readReg,
    ⟨s.takeInterrupt_byteAt, s.takeInterrupt_stored⟩,
    ⟨s.takeInterrupt_events, s.takeInterrupt_draws⟩,
    ⟨s.takeInterrupt_irq, s.takeInterrupt_plat⟩⟩

end Sys2Proof.Machine

namespace Sys2Proof.Proofs

open Sys2Proof Sys2Proof.Machine

/-- Settles O45: the three fields the entry sets, by the rule of each, and its frame for all the rest. -/
theorem entryChangesExactlyThree : Obligations.EntryChangesExactlyThree := fun s =>
  ⟨s.takeInterrupt_ni, s.takeInterrupt_mepc, s.takeInterrupt_pc, s.takeInterrupt_frame⟩

end Sys2Proof.Proofs
end

section
/-! PROOFS. The decoder and the encoder against the instruction list (`30_encoding.md` R70, R72): a word decodes
exactly when it has a row's mask and match, to that row's instruction with the operands read from the word. -/

namespace Sys2Proof

/-- The instruction of `i`'s row whose operands are the fields of `w`. -/
def Instr.withFieldsOf (i : Instr) (w : Word) : Instr :=
  match i with
  | .lui _ _ => .lui (rdField w) (immU w)
  | .auipc _ _ => .auipc (rdField w) (immU w)
  | .jal _ _ => .jal (rdField w) (immJ w)
  | .jalr _ _ _ => .jalr (rdField w) (rs1Field w) (immI w)
  | .beq _ _ _ => .beq (rs1Field w) (rs2Field w) (immB w)
  | .bne _ _ _ => .bne (rs1Field w) (rs2Field w) (immB w)
  | .blt _ _ _ => .blt (rs1Field w) (rs2Field w) (immB w)
  | .bge _ _ _ => .bge (rs1Field w) (rs2Field w) (immB w)
  | .bltu _ _ _ => .bltu (rs1Field w) (rs2Field w) (immB w)
  | .bgeu _ _ _ => .bgeu (rs1Field w) (rs2Field w) (immB w)
  | .lb _ _ _ => .lb (rdField w) (rs1Field w) (immI w)
  | .lh _ _ _ => .lh (rdField w) (rs1Field w) (immI w)
  | .lw _ _ _ => .lw (rdField w) (rs1Field w) (immI w)
  | .lbu _ _ _ => .lbu (rdField w) (rs1Field w) (immI w)
  | .lhu _ _ _ => .lhu (rdField w) (rs1Field w) (immI w)
  | .sb _ _ _ => .sb (rs2Field w) (rs1Field w) (immS w)
  | .sh _ _ _ => .sh (rs2Field w) (rs1Field w) (immS w)
  | .sw _ _ _ => .sw (rs2Field w) (rs1Field w) (immS w)
  | .addi _ _ _ => .addi (rdField w) (rs1Field w) (immI w)
  | .slli _ _ _ => .slli (rdField w) (rs1Field w) (rs2Field w)
  | .slti _ _ _ => .slti (rdField w) (rs1Field w) (immI w)
  | .sltiu _ _ _ => .sltiu (rdField w) (rs1Field w) (immI w)
  | .xori _ _ _ => .xori (rdField w) (rs1Field w) (immI w)
  | .srli _ _ _ => .srli (rdField w) (rs1Field w) (rs2Field w)
  | .srai _ _ _ => .srai (rdField w) (rs1Field w) (rs2Field w)
  | .ori _ _ _ => .ori (rdField w) (rs1Field w) (immI w)
  | .andi _ _ _ => .andi (rdField w) (rs1Field w) (immI w)
  | .add _ _ _ => .add (rdField w) (rs1Field w) (rs2Field w)
  | .sub _ _ _ => .sub (rdField w) (rs1Field w) (rs2Field w)
  | .sll _ _ _ => .sll (rdField w) (rs1Field w) (rs2Field w)
  | .slt _ _ _ => .slt (rdField w) (rs1Field w) (rs2Field w)
  | .sltu _ _ _ => .sltu (rdField w) (rs1Field w) (rs2Field w)
  | .xor _ _ _ => .xor (rdField w) (rs1Field w) (rs2Field w)
  | .srl _ _ _ => .srl (rdField w) (rs1Field w) (rs2Field w)
  | .sra _ _ _ => .sra (rdField w) (rs1Field w) (rs2Field w)
  | .or _ _ _ => .or (rdField w) (rs1Field w) (rs2Field w)
  | .and _ _ _ => .and (rdField w) (rs1Field w) (rs2Field w)
  | .mret => .mret

/-- The row of R72 does not depend on the operands. -/
theorem Instr.row_withFieldsOf (i : Instr) (w : Word) : (i.withFieldsOf w).row = i.row := by
  cases i <;> rfl

/-- Every immediate read from a word is one that its format can carry. -/
theorem Instr.wf_withFieldsOf (i : Instr) (w : Word) : (i.withFieldsOf w).wf = true := by
  cases i with
  | lui | auipc => exact immU_fits w
  | jal => exact immJ_fits w
  | beq | bne | blt | bge | bltu | bgeu => exact immB_fits w
  | jalr | lb | lh | lw | lbu | lhu | addi | slti | sltiu | xori | ori | andi => exact immI_fits w
  | sb | sh | sw => exact immS_fits w
  | slli | srli | srai | add | sub | sll | slt | sltu | xor | srl | sra | or | and | mret => rfl

/-- The word `w` has the mask and match of `i`'s row, and its operand fields hold `i`'s operands. -/
structure Instr.FitsWord (i : Instr) (w : Word) : Prop where
  row : w &&& i.row.mask = i.row.pattern
  fields : i.withFieldsOf w = i

/-! The groups of the decoder, each selected by the opcode (R70). -/

theorem decode_of_load_opcode {w : Word} (h : opcode w = 0b0000011#7) : decode w = decodeLoad w := by
  unfold decode
  rw [h]
  rfl

theorem decode_of_store_opcode {w : Word} (h : opcode w = 0b0100011#7) : decode w = decodeStore w := by
  unfold decode
  rw [h]
  rfl

theorem decode_of_branch_opcode {w : Word} (h : opcode w = 0b1100011#7) : decode w = decodeBranch w := by
  unfold decode
  rw [h]
  rfl

theorem decode_of_jalr_opcode {w : Word} (h : opcode w = 0b1100111#7) : decode w = decodeJalr w := by
  unfold decode
  rw [h]
  rfl

theorem decode_of_auipc_opcode {w : Word} (h : opcode w = 0b0010111#7) :
    decode w = .ok (.auipc (rdField w) (immU w)) := by
  unfold decode
  rw [h]
  rfl

theorem decode_of_jal_opcode {w : Word} (h : opcode w = 0b1101111#7) :
    decode w = .ok (.jal (rdField w) (immJ w)) := by
  unfold decode
  rw [h]
  rfl

theorem decode_mretWord : decode mretWord = .ok .mret := rfl

/-- A word with a row's mask and match decodes to the row's instruction with the operands in the word's fields. -/
theorem decode_of_row {w : Word} (i : Instr) (h : w &&& i.row.mask = i.row.pattern) :
    decode w = .ok (i.withFieldsOf w) := by
  cases i with
  | lui => exact decode_of_lui_opcode (opcode_of_mask h)
  | auipc => exact decode_of_auipc_opcode (opcode_of_mask h)
  | jal => exact decode_of_jal_opcode (opcode_of_mask h)
  | jalr =>
    simp only [Instr.row] at h
    obtain ⟨hop, hf3⟩ := funct3_of_mask h
    rw [decode_of_jalr_opcode hop, decodeJalr, hf3]
    rfl
  | beq | bne | blt | bge | bltu | bgeu =>
    simp only [Instr.row] at h
    obtain ⟨hop, hf3⟩ := funct3_of_mask h
    rw [decode_of_branch_opcode hop, decodeBranch, hf3]
    rfl
  | lb | lh | lw | lbu | lhu =>
    simp only [Instr.row] at h
    obtain ⟨hop, hf3⟩ := funct3_of_mask h
    rw [decode_of_load_opcode hop, decodeLoad, hf3]
    rfl
  | sb | sh | sw =>
    simp only [Instr.row] at h
    obtain ⟨hop, hf3⟩ := funct3_of_mask h
    rw [decode_of_store_opcode hop, decodeStore, hf3]
    rfl
  | addi | slti | sltiu | xori | ori | andi =>
    simp only [Instr.row] at h
    obtain ⟨hop, hf3⟩ := funct3_of_mask h
    rw [decode_of_opImm_opcode hop, decodeOpImm, hf3]
    rfl
  | slli | srli | srai =>
    simp only [Instr.row] at h
    obtain ⟨hop, hf3, hf7⟩ := funct7_of_mask h
    rw [decode_of_opImm_opcode hop, decodeOpImm, hf3, hf7]
    rfl
  | add | sub | sll | slt | sltu | xor | srl | sra | or | and =>
    simp only [Instr.row] at h
    obtain ⟨hop, hf3, hf7⟩ := funct7_of_mask h
    rw [decode_of_op_opcode hop, decodeOp, hf3, hf7]
    rfl
  | mret =>
    obtain rfl : w = mretWord := (mask_all w).symm.trans h
    exact decode_mretWord

/-! What each group answers. In each, the fields that selected an instruction give the row's mask and match. -/

theorem decodeLoad_fits {w : Word} {i : Instr} (hop : opcode w = 0b0000011#7)
    (h : decodeLoad w = .ok i) : i.FitsWord w := by
  unfold decodeLoad at h
  split at h <;> cases h
  all_goals exact ⟨Laws.funct3_row _ _ hop ‹funct3 w = _› rfl, rfl⟩

theorem decodeStore_fits {w : Word} {i : Instr} (hop : opcode w = 0b0100011#7)
    (h : decodeStore w = .ok i) : i.FitsWord w := by
  unfold decodeStore at h
  split at h <;> cases h
  all_goals exact ⟨Laws.funct3_row _ _ hop ‹funct3 w = _› rfl, rfl⟩

theorem decodeBranch_fits {w : Word} {i : Instr} (hop : opcode w = 0b1100011#7)
    (h : decodeBranch w = .ok i) : i.FitsWord w := by
  unfold decodeBranch at h
  split at h <;> cases h
  all_goals exact ⟨Laws.funct3_row _ _ hop ‹funct3 w = _› rfl, rfl⟩

theorem decodeJalr_fits {w : Word} {i : Instr} (hop : opcode w = 0b1100111#7)
    (h : decodeJalr w = .ok i) : i.FitsWord w := by
  unfold decodeJalr at h
  split at h <;> cases h
  exact ⟨Laws.funct3_row _ _ hop ‹funct3 w = _› rfl, rfl⟩

theorem decodeOpImm_fits {w : Word} {i : Instr} (hop : opcode w = 0b0010011#7)
    (h : decodeOpImm w = .ok i) : i.FitsWord w := by
  unfold decodeOpImm at h
  split at h
  case h_7 | h_8 =>
    split at h <;> cases h
    all_goals exact ⟨Laws.funct7_row _ _ _ hop ‹funct3 w = _› ‹funct7 w = _› rfl, rfl⟩
  all_goals cases h
  all_goals exact ⟨Laws.funct3_row _ _ hop ‹funct3 w = _› rfl, rfl⟩

theorem decodeOp_fits {w : Word} {i : Instr} (hop : opcode w = 0b0110011#7)
    (h : decodeOp w = .ok i) : i.FitsWord w := by
  unfold decodeOp at h
  split at h
  case h_3 => cases h
  all_goals
    split at h <;> cases h
    all_goals exact ⟨Laws.funct7_row _ _ _ hop ‹funct3 w = _› ‹funct7 w = _› rfl, rfl⟩

theorem decodeSystem_fits {w : Word} {i : Instr} (h : decodeSystem w = .ok i) : i.FitsWord w := by
  unfold decodeSystem at h
  split at h
  case isTrue hw =>
    cases h
    exact ⟨(mask_all w).trans hw, rfl⟩
  case isFalse => cases h

/-- A word that decodes has the mask and match of its instruction's row, and holds its operands. -/
theorem decode_fits {w : Word} {i : Instr} (h : decode w = .ok i) : i.FitsWord w := by
  unfold decode at h
  split at h
  case h_1 hop => exact decodeLoad_fits hop h
  case h_2 hop => exact decodeOpImm_fits hop h
  case h_4 hop => exact decodeStore_fits hop h
  case h_5 hop => exact decodeOp_fits hop h
  case h_7 hop => exact decodeBranch_fits hop h
  case h_8 hop => exact decodeJalr_fits hop h
  case h_10 => exact decodeSystem_fits h
  case h_3 hop | h_6 hop | h_9 hop =>
    cases h
    exact ⟨Laws.opcode_row _ hop rfl, rfl⟩
  case h_11 => cases h

/-! The word of an instruction, and the instruction of a word. -/

theorem encode_row (i : Instr) : encode i &&& i.row.mask = i.row.pattern := by
  cases i with
  | lui => exact Laws.RowMatch.lui _ _
  | auipc => exact Laws.RowMatch.auipc _ _
  | jal => exact Laws.RowMatch.jal _ _
  | jalr => exact Laws.RowMatch.jalr _ _ _
  | beq => exact Laws.RowMatch.beq _ _ _
  | bne => exact Laws.RowMatch.bne _ _ _
  | blt => exact Laws.RowMatch.blt _ _ _
  | bge => exact Laws.RowMatch.bge _ _ _
  | bltu => exact Laws.RowMatch.bltu _ _ _
  | bgeu => exact Laws.RowMatch.bgeu _ _ _
  | lb => exact Laws.RowMatch.lb _ _ _
  | lh => exact Laws.RowMatch.lh _ _ _
  | lw => exact Laws.RowMatch.lw _ _ _
  | lbu => exact Laws.RowMatch.lbu _ _ _
  | lhu => exact Laws.RowMatch.lhu _ _ _
  | sb => exact Laws.RowMatch.sb _ _ _
  | sh => exact Laws.RowMatch.sh _ _ _
  | sw => exact Laws.RowMatch.sw _ _ _
  | addi => exact Laws.RowMatch.addi _ _ _
  | slli => exact Laws.RowMatch.slli _ _ _
  | slti => exact Laws.RowMatch.slti _ _ _
  | sltiu => exact Laws.RowMatch.sltiu _ _ _
  | xori => exact Laws.RowMatch.xori _ _ _
  | srli => exact Laws.RowMatch.srli _ _ _
  | srai => exact Laws.RowMatch.srai _ _ _
  | ori => exact Laws.RowMatch.ori _ _ _
  | andi => exact Laws.RowMatch.andi _ _ _
  | add => exact Laws.RowMatch.add _ _ _
  | sub => exact Laws.RowMatch.sub _ _ _
  | sll => exact Laws.RowMatch.sll _ _ _
  | slt => exact Laws.RowMatch.slt _ _ _
  | sltu => exact Laws.RowMatch.sltu _ _ _
  | xor => exact Laws.RowMatch.xor _ _ _
  | srl => exact Laws.RowMatch.srl _ _ _
  | sra => exact Laws.RowMatch.sra _ _ _
  | or => exact Laws.RowMatch.or _ _ _
  | and => exact Laws.RowMatch.and _ _ _
  | mret => exact Laws.RowMatch.mret

/-- The fields of a well-formed instruction's word are its operands. -/
theorem Instr.withFieldsOf_encode (i : Instr) (h : i.wf = true) : i.withFieldsOf (encode i) = i := by
  cases i with
  | lui | auipc =>
    simp only [withFieldsOf, encode, rdField_encodeU, immU_encodeU, immU_carried h]
  | jal => simp only [withFieldsOf, encode, rdField_encodeJ, immJ_encodeJ, immJ_carried h]
  | beq | bne | blt | bge | bltu | bgeu =>
    simp only [withFieldsOf, encode, rs1Field_encodeB, rs2Field_encodeB, immB_encodeB, immB_carried h]
  | jalr | lb | lh | lw | lbu | lhu | addi | slti | sltiu | xori | ori | andi =>
    simp only [withFieldsOf, encode, rdField_encodeI, rs1Field_encodeI, immI_encodeI, imm12_carried h]
  | sb | sh | sw =>
    simp only [withFieldsOf, encode, rs1Field_encodeS, rs2Field_encodeS, immS_encodeS, imm12_carried h]
  | slli | srli | srai | add | sub | sll | slt | sltu | xor | srl | sra | or | and =>
    simp only [withFieldsOf, encode, rdField_encodeR, rs1Field_encodeR, rs2Field_encodeR]
  | mret => rfl

/-- A word with a row's mask and match is the word of the row's instruction with the word's fields as operands. -/
theorem encode_withFieldsOf {w : Word} (i : Instr) (h : w &&& i.row.mask = i.row.pattern) :
    encode (i.withFieldsOf w) = w := by
  cases i with
  | lui | auipc =>
    conv_rhs => rw [← encodeU_word w, opcode_of_mask h]
    rfl
  | jal =>
    conv_rhs => rw [← encodeJ_word w, opcode_of_mask h]
    rfl
  | beq | bne | blt | bge | bltu | bgeu =>
    simp only [Instr.row] at h
    obtain ⟨hop, hf3⟩ := funct3_of_mask h
    conv_rhs => rw [← encodeB_word w, hop, hf3]
    rfl
  | jalr | lb | lh | lw | lbu | lhu | addi | slti | sltiu | xori | ori | andi =>
    simp only [Instr.row] at h
    obtain ⟨hop, hf3⟩ := funct3_of_mask h
    conv_rhs => rw [← encodeI_word w, hop, hf3]
    rfl
  | sb | sh | sw =>
    simp only [Instr.row] at h
    obtain ⟨hop, hf3⟩ := funct3_of_mask h
    conv_rhs => rw [← encodeS_word w, hop, hf3]
    rfl
  | slli | srli | srai | add | sub | sll | slt | sltu | xor | srl | sra | or | and =>
    simp only [Instr.row] at h
    obtain ⟨hop, hf3, hf7⟩ := funct7_of_mask h
    conv_rhs => rw [← encodeR_word w, hop, hf3, hf7]
    rfl
  | mret => exact ((mask_all w).symm.trans h).symm

theorem decode_encode {i : Instr} (h : i.wf = true) : decode (encode i) = .ok i := by
  rw [decode_of_row i (encode_row i), i.withFieldsOf_encode h]

theorem encode_decode {w : Word} {i : Instr} (h : decode w = .ok i) : i.wf = true ∧ encode i = w := by
  obtain ⟨hrow, hfields⟩ := decode_fits h
  rw [← hfields]
  exact ⟨i.wf_withFieldsOf w, encode_withFieldsOf i hrow⟩

/-- A word put together field by field decodes to the well-formed instruction it encodes. -/
theorem decode_of_encode_eq {i : Instr} {w : Word} (hwf : i.wf = true) (hw : encode i = w) :
    decode w = .ok i := hw ▸ decode_encode hwf

/-- A word that matches no row of R72 is rejected. -/
theorem decode_unlisted {w : Word} (h : ∀ j : Instr, w &&& j.row.mask ≠ j.row.pattern) :
    ∃ e, decode w = .error e := by
  cases hd : decode w with
  | error e => exact ⟨e, rfl⟩
  | ok i => exact absurd (decode_fits hd).row (h i)

end Sys2Proof

namespace Sys2Proof.Machine

/-- A fetched word that the decoder rejects is the model fault `IllegalInstruction` (R75). -/
theorem step_of_decode_error {s s1 : State} {w : Word} {e : DecodeError} (hf : s.fetch = .ok (w, s1))
    (hd : decode w = .error e) : step s = .fault (.illegalInstruction w) := by
  simp only [step, hf, hd]

end Sys2Proof.Machine

namespace Sys2Proof.Proofs

open Sys2Proof Sys2Proof.Machine

/-- Settles O4: the word has its row's mask and match, so it decodes to the row's instruction, and its fields are the
operands it was made of. -/
theorem decodeOfEncodeIsIdentity : Obligations.DecodeOfEncodeIsIdentity := fun _ => decode_encode

/-- Settles O5: the fields of a word that decodes are the operands, and the selecting fields are the row's, so the
word is put together again from both. -/
theorem encodeOfDecodeIsIdentity : Obligations.EncodeOfDecodeIsIdentity := fun _ _ => encode_decode

/-- Settles O6: the inversion of the decoder one way, the selection by a row's mask the other. -/
theorem decodeFollowsMaskAndMatch : Obligations.DecodeFollowsMaskAndMatch := fun w =>
  ⟨fun _ h => (decode_fits h).row, fun j h => ⟨_, decode_of_row j h, j.row_withFieldsOf w⟩⟩

/-- Settles O7: the decoder is a function, so the two rows' instructions of the word are one. -/
theorem noWordMatchesTwoRows : Obligations.NoWordMatchesTwoRows := by
  intro w i j hi hj
  have heq : i.withFieldsOf w = j.withFieldsOf w :=
    Except.ok.inj ((decode_of_row i hi).symm.trans (decode_of_row j hj))
  rw [← i.row_withFieldsOf w, heq, j.row_withFieldsOf]

/-- Settles O8: a word of no row is rejected by the decoder, and a rejected word is that fault. -/
theorem unlistedWordIsIllegal : Obligations.UnlistedWordIsIllegal := by
  intro s s1 w hf hw
  obtain ⟨e, hd⟩ := decode_unlisted hw
  exact step_of_decode_error hf hd

/-- Settles O9: each word is evaluated by the decoder. -/
theorem sampleWordsDecode : Obligations.SampleWordsDecode :=
  ⟨rfl, rfl, rfl, rfl, rfl, rfl, rfl, rfl, rfl, rfl⟩

end Sys2Proof.Proofs
end

section
/-! PROOFS. The invariant of reachable states (`10_state.md` R21, R27, `20_memory.md` R40): it holds right after reset,
and each operation of the machine keeps it, so every step does. -/

namespace Sys2Proof.Machine

namespace State.Inv

variable {s : State} (hs : s.Inv)
include hs

theorem setPc {t : Word} (ht : t.toNat % 4 = 0) : (s.setPc t).Inv :=
  { hs with pc_aligned := ht }

theorem writeReg (r : RegId) (v : Word) : (s.writeReg r v).Inv where
  x0_zero := (s.writeReg_entry0 r v).trans hs.x0_zero
  pc_aligned := by simpa using hs.pc_aligned
  mepc_aligned := by simpa using hs.mepc_aligned
  mem_wf := by simpa using hs.mem_wf
  stored_wf := by simpa using hs.stored_wf

theorem noteAccess (a n : Nat) (e : DeviceEvent) : (s.noteAccess a n e).Inv where
  x0_zero := by simpa using hs.x0_zero
  pc_aligned := by simpa using hs.pc_aligned
  mepc_aligned := by simpa using hs.mepc_aligned
  mem_wf := by simpa using hs.mem_wf
  stored_wf := by simpa using hs.stored_wf

theorem writeBytes {a n : Nat} (v : Word) (h : a + n ≤ 4294967296) : (s.writeBytes a v n).Inv where
  x0_zero := by simpa using hs.x0_zero
  pc_aligned := by simpa using hs.pc_aligned
  mepc_aligned := by simpa using hs.mepc_aligned
  mem_wf := (State.writeBytes_wf v hs.mem_wf hs.stored_wf h).1
  stored_wf := (State.writeBytes_wf v hs.mem_wf hs.stored_wf h).2

theorem returnFromInterrupt : s.returnFromInterrupt.Inv :=
  { hs with pc_aligned := hs.mepc_aligned }

theorem next_pc_aligned : (s.pc + 4#32).toNat % 4 = 0 := plus4_aligned hs.pc_aligned

/-- A fetch keeps the invariant: it changes the device record alone. -/
theorem fetch {s1 : State} {w : Word} (h : s.fetch = .ok (w, s1)) : s1.Inv := by
  obtain ⟨-, -, -, -, rfl⟩ := (State.fetch_ok_iff s s1 w).1 h
  exact hs.noteAccess _ _ _

/-- Every instruction keeps the invariant: its target is a multiple of 4, and a store that passed its checks stays
below 2^32. -/
theorem exec {i : Instr} {t : State} (h : exec i s = .next t) : t.Inv := by
  cases exec_shape h with
  | result rd v _ eq => exact eq ▸ (hs.writeReg rd v).setPc hs.next_pc_aligned
  | jump rd target _ aligned eq => exact eq ▸ (hs.writeReg rd _).setPc aligned
  | branch target aligned eq =>
    refine eq ▸ hs.setPc ?_
    rcases aligned with ha | rfl
    · exact ha
    · exact hs.next_pc_aligned
  | load rd addr n v _ _ _ eq =>
    exact eq ▸ ((hs.noteAccess _ _ _).writeReg rd v).setPc hs.next_pc_aligned
  | store addr n v size checks eq =>
    have haligned := ((State.checkAccess_none _ _ _ _).1 checks).1
    have hend := aligned_end size ((aligned_iff _ _).2 haligned)
    exact eq ▸ ((hs.noteAccess _ _ _).writeBytes v hend).setPc hs.next_pc_aligned
  | mret _ _ eq => exact eq ▸ hs.returnFromInterrupt

/-- The end of a step keeps the invariant: what the entry saves is the `pc` of the instruction's end. -/
theorem retire (s0 : State) : (s0.retire s).Inv := by
  rcases s0.retire_cases s with ⟨-, -, he⟩ | ⟨-, he⟩ <;> rw [he]
  · have hvector : irqVector.toNat % 4 = 0 := rfl
    exact { hs with pc_aligned := hvector, mepc_aligned := hs.pc_aligned }
  · exact { hs with }

end State.Inv

/-- A byte that nothing has loaded or stored reads as the free value (log 6). -/
theorem State.byteAt_unlisted {s : State} {a : Nat} (h : s.mem.get a = none) :
    s.byteAt a = Config.initialByte a := by
  simp only [State.byteAt, h]

theorem resetOn_inv {p : Platform} {image : Memory} (requests : List Bool)
    (hpc : p.resetPc.toNat % 4 = 0) (himage : image.wf = true) :
    (State.resetOn p image requests).Inv where
  x0_zero := rfl
  pc_aligned := hpc
  mepc_aligned := rfl
  mem_wf := himage
  stored_wf := rfl

end Sys2Proof.Machine

namespace Sys2Proof.Proofs

open Sys2Proof Sys2Proof.Machine

/-- Settles O3: the fetch, the instruction and the end of the step each keep the invariant. -/
theorem stepKeepsTheInvariant : Obligations.StepKeepsTheInvariant := by
  intro s t hs h
  obtain ⟨w, s1, i, s2, hf, -, he, rfl⟩ := (step_next_iff s t).1 h
  exact ((hs.fetch hf).exec he).retire s1

/-- Settles O2: `RESET_PC` and the image are the two fields that reset does not fix; the default platform's meet the
premises. -/
theorem resetMeetsTheInvariant : Obligations.ResetMeetsTheInvariant :=
  ⟨fun _ _ requests => resetOn_inv requests, resetOn_inv [] rfl rfl⟩

/-- Settles O1: each field of the state after reset is the one given; an unlisted byte is read as the free one. -/
theorem resetLeavesTheGivenValues : Obligations.ResetLeavesTheGivenValues :=
  ⟨fun p image requests => ⟨rfl, rfl, State.readReg_zero _, rfl,
    fun _ => State.byteAt_unlisted (s := State.resetOn p image requests), rfl, rfl, rfl, rfl⟩, rfl, rfl⟩

end Sys2Proof.Proofs
end

section
/-! PROOFS. Sums, differences, SLL, SLTIU and AUIPC from their word to their effect (`40_upper_immediate.md`,
`43_op_imm.md`, `44_op.md`): the values as numbers. -/

namespace Sys2Proof.Machine

/-! Values modulo 2^32 (R151 b). -/

/-- As an unsigned number, a sign-extended immediate is its signed value modulo 2^32. -/
theorem signExtend_toNat (imm : BitVec 12) :
    ((imm.signExtend 32).toNat : Int) = imm.toInt % 2 ^ 32 := by
  have hsext : (imm.signExtend 32).toInt = imm.toInt := BitVec.toInt_signExtend_of_le (by decide)
  have hcond := BitVec.toInt_eq_toNat_cond (imm.signExtend 32)
  rw [← hsext, hcond]
  have := (imm.signExtend 32).isLt
  split <;> omega

theorem addWord_toNat (a b : Word) : (addWord a b).toNat = (a.toNat + b.toNat) % 2 ^ 32 :=
  BitVec.toNat_add a b

theorem subWord_toNat (a b : Word) : ((subWord a b).toNat : Int) = ((a.toNat : Int) - b.toNat) % 2 ^ 32 := by
  have ha := a.isLt
  have hb := b.isLt
  rw [subWord, BitVec.toNat_sub]
  omega

theorem addWord_signExtend_toNat (a : Word) (imm : BitVec 12) :
    ((addWord a (imm.signExtend 32)).toNat : Int) = (a.toNat + imm.toInt) % 2 ^ 32 := by
  have := signExtend_toNat imm
  rw [addWord_toNat]
  omega

end Sys2Proof.Machine

namespace Sys2Proof.Proofs

open Sys2Proof Sys2Proof.Machine

/-- Settles O14: both results are read as numbers modulo 2^32. -/
theorem addAndSubtract : Obligations.AddAndSubtract := fun rd rs1 rs2 =>
  ⟨decode_of_encode_eq (i := .add rd rs1 rs2) rfl rfl, decode_of_encode_eq (i := .sub rd rs1 rs2) rfl rfl, fun s =>
    ⟨s.setResult_of_value rd (addWord_toNat _ _),
      s.setResult_of_value rd (P := fun v => (v.toNat : Int) = _) (subWord_toNat _ _)⟩⟩

/-- Settles O15: the bit law of the shift, the amount being `x[rs2]` modulo 32. -/
theorem shiftLeftByRegister : Obligations.ShiftLeftByRegister := by
  refine fun rd rs1 rs2 => ⟨decode_of_encode_eq (i := .sll rd rs1 rs2) rfl rfl, fun s => ?_⟩
  rw [← s.shiftAmount_eq_mod rs2]
  exact s.setResult_of_value rd fun _ => shiftLeft_bit (s.readReg rs1) (s.shiftAmount rs2)

/-- Settles O19: sign extension keeps the immediate's signed value, and the sum is taken modulo 2^32. -/
theorem addImmediate : Obligations.AddImmediate := fun rd rs1 imm =>
  ⟨decode_of_encode_eq (i := .addi rd rs1 _) (immFits12_fields imm) (encodeI_fields _ _ _ _ _), fun s =>
    s.setResult_of_value rd (P := fun v => (v.toNat : Int) = _) (addWord_signExtend_toNat (s.readReg rs1) imm)⟩

/-- Settles O21: the extended immediate, read as unsigned, is its signed value modulo 2^32. -/
theorem setOnLessThanImmediateUnsigned : Obligations.SetOnLessThanImmediateUnsigned := by
  refine fun rd rs1 imm => ⟨decode_of_encode_eq (i := .sltiu rd rs1 _) (immFits12_fields imm)
    (encodeI_fields _ _ _ _ _), fun s => ?_⟩
  simp only [← signExtend_toNat, Int.ofNat_lt, ← boolWord_cmpLtu]
  exact s.setResult_result rd _

/-- Settles O25: the immediate is its field times 4096, and the sum with `pc` is taken modulo 2^32. -/
theorem addUpperImmediateToPc : Obligations.AddUpperImmediateToPc := by
  refine fun rd imm => ⟨decode_of_encode_eq (i := .auipc rd _) (immFitsU_fields imm) (encodeU_fields _ _ _),
    fun s => ?_⟩
  rw [← upper_toNat imm]
  exact s.setResult_of_value rd (addWord_toNat s.pc _)

end Sys2Proof.Proofs
end

section
/-! PROOFS. Jumps and conditional branches (`41_jumps_branches.md`): what a transfer answers at a target that is a
multiple of 4 and at one that is not, and the condition of each branch. -/

namespace Sys2Proof.Machine

/-! Transfers (R110 to R112). -/

/-- An instruction whose one effect is on `pc` has that whole effect. -/
theorem State.setPc_result (s : State) (t : Word) : PcResult s (s.setPc t) t where
  next_pc := rfl
  regs _ := rfl
  trap := ⟨rfl, rfl⟩
  memory := ⟨fun _ => rfl, rfl⟩
  devices := ⟨rfl, rfl⟩
  inputs := ⟨rfl, rfl⟩

/-- A jump to a multiple of 4 has the whole effect of a jump. -/
theorem State.jumpAndLink_result (s : State) (rd : RegId) {target : Word} (ht : target.toNat % 4 = 0) :
    ∃ t, s.jumpAndLink rd target = .next t ∧ JumpResult s t rd target :=
  ⟨_, (State.jumpAndLink_next_iff _ _ _ _).2 ⟨ht, rfl⟩,
    { link := by simp
      others := fun r hr => by simp [State.readReg_writeReg_other _ _ _ _ hr]
      next_pc := rfl
      trap := ⟨by simp, by simp⟩
      memory := ⟨fun a => by simp, by simp⟩
      devices := ⟨by simp, by simp⟩
      inputs := ⟨by simp, by simp⟩ }⟩

theorem State.transfer_misaligned (s : State) {target : Word} (ht : target.toNat % 4 ≠ 0) :
    s.transfer target = .fault (.misalignedTarget target) :=
  if_neg (mt (aligned_iff target 4).1 ht)

theorem State.jumpAndLink_misaligned (s : State) (rd : RegId) {target : Word} (ht : target.toNat % 4 ≠ 0) :
    s.jumpAndLink rd target = .fault (.misalignedTarget target) :=
  State.transfer_misaligned _ ht

theorem exec_mret_misaligned {s : State} (h : s.mepc.toNat % 4 ≠ 0) :
    exec .mret s = .fault (.misalignedTarget s.mepc) :=
  if_neg (mt (aligned_iff s.mepc 4).1 h)

/-! Branches (R113 to R118): `c` is the test that the instruction makes, `cond` what the spec says of it. -/

theorem State.branchIf_completes (s : State) {c : Bool} {cond : Prop} (hc : c = true ↔ cond) (imm : Word) :
    BranchCompletes s (s.branchIf c imm) cond imm := by
  constructor
  · intro h ht
    exact ⟨_, (State.branchIf_next_iff _ _ _ _).2 (.inl ⟨hc.2 h, ht, rfl⟩), s.setPc_result _⟩
  · intro h
    exact ⟨_, (State.branchIf_next_iff _ _ _ _).2 (.inr ⟨Bool.eq_false_iff.2 (mt hc.1 h), rfl⟩), s.setPc_result _⟩

theorem State.branchIf_misaligned (s : State) {c : Bool} {cond : Prop} (hc : c = true ↔ cond) {imm : Word}
    (ht : (s.pc + imm).toNat % 4 ≠ 0) (h : cond) :
    s.branchIf c imm = .fault (.misalignedTarget (s.pc + imm)) :=
  (if_pos (hc.2 h)).trans (s.transfer_misaligned ht)

theorem cmpEq_iff (a b : Word) : cmpEq a b = true ↔ a = b := beq_iff_eq

theorem not_cmpEq_iff (a b : Word) : (!cmpEq a b) = true ↔ a ≠ b := by
  rw [Bool.not_eq_true', Bool.eq_false_iff, Ne, cmpEq_iff]

theorem cmpLt_iff (a b : Word) : cmpLt a b = true ↔ a.toInt < b.toInt := decide_eq_true_iff

theorem not_cmpLt_iff (a b : Word) : (!cmpLt a b) = true ↔ a.toInt ≥ b.toInt := by
  rw [Bool.not_eq_true', Bool.eq_false_iff, Ne, cmpLt_iff, Int.not_lt]

theorem cmpLtu_iff (a b : Word) : cmpLtu a b = true ↔ a.toNat < b.toNat := decide_eq_true_iff

theorem not_cmpLtu_iff (a b : Word) : (!cmpLtu a b) = true ↔ a.toNat ≥ b.toNat := by
  rw [Bool.not_eq_true', Bool.eq_false_iff, Ne, cmpLtu_iff, Nat.not_lt]

end Sys2Proof.Machine

namespace Sys2Proof

/-- A word put together from the fields of format B decodes to the branch `mk` of its `funct3` (R65). -/
theorem decode_branch_fields {f3 : BitVec 3} {mk : RegId → RegId → Word → Instr}
    (hwf : ∀ rs1 rs2 imm, (mk rs1 rs2 imm).wf = immFitsB imm)
    (hencode : ∀ rs1 rs2 imm, encode (mk rs1 rs2 imm) = encodeB imm rs2 rs1 f3 0b1100011#7)
    {rs1 rs2 : RegId} {b12 b11 : BitVec 1} {b10 : BitVec 6} {b4 : BitVec 4} {imm : Word}
    (himm : imm = (b12 ++ b11 ++ b10 ++ b4 ++ 0#1 : BitVec 13).signExtend 32) :
    decode (b12 ++ b10 ++ rs2 ++ rs1 ++ f3 ++ b4 ++ b11 ++ 0b1100011#7) = .ok (mk rs1 rs2 imm) := by
  subst himm
  exact decode_of_encode_eq ((hwf _ _ _).trans (immFitsB_fields (b12 ++ b11 ++ b10 ++ b4)))
    ((hencode _ _ _).trans (encodeB_fields _ _ _ _ _ _ _ _))

end Sys2Proof

namespace Sys2Proof.Proofs

open Sys2Proof Sys2Proof.Machine

/-- Settles O26: format J carries every field, and the effect is that of a jump to a multiple of 4. -/
theorem jumpAndLink : Obligations.JumpAndLink := fun rd b20 b11 b10 b19 =>
  ⟨decode_of_encode_eq (i := .jal rd _) (immFitsJ_fields (b20 ++ b19 ++ b11 ++ b10)) (encodeJ_fields _ _ _ _ _ _),
    fun s _ _ ht => s.jumpAndLink_result rd ht⟩

/-- Settles O27: the target is computed from the state before the link is written, so the old register is used. -/
theorem jumpAndLinkRegister : Obligations.JumpAndLinkRegister := fun rd rs1 imm =>
  ⟨decode_of_encode_eq (i := .jalr rd rs1 _) (immFits12_fields imm) (encodeI_fields _ _ _ _ _),
    fun s ht => s.jumpAndLink_result rd ht⟩

/-- Settles O28: both branches by what their test says of the two registers. -/
theorem branchOnEquality : Obligations.BranchOnEquality := fun _ _ _ _ _ _ imm himm =>
  ⟨decode_branch_fields (mk := .beq) (fun _ _ _ => rfl) (fun _ _ _ => rfl) himm,
    decode_branch_fields (mk := .bne) (fun _ _ _ => rfl) (fun _ _ _ => rfl) himm, fun s =>
      ⟨s.branchIf_completes (cmpEq_iff _ _) imm, s.branchIf_completes (not_cmpEq_iff _ _) imm⟩⟩

/-- Settles O29: both branches by what their test says of the two registers as signed numbers. -/
theorem branchOnSignedOrder : Obligations.BranchOnSignedOrder := fun _ _ _ _ _ _ imm himm =>
  ⟨decode_branch_fields (mk := .blt) (fun _ _ _ => rfl) (fun _ _ _ => rfl) himm,
    decode_branch_fields (mk := .bge) (fun _ _ _ => rfl) (fun _ _ _ => rfl) himm, fun s =>
      ⟨s.branchIf_completes (cmpLt_iff _ _) imm, s.branchIf_completes (not_cmpLt_iff _ _) imm⟩⟩

/-- Settles O30: both branches by what their test says of the two registers as unsigned numbers. -/
theorem branchOnUnsignedOrder : Obligations.BranchOnUnsignedOrder := fun _ _ _ _ _ _ imm himm =>
  ⟨decode_branch_fields (mk := .bltu) (fun _ _ _ => rfl) (fun _ _ _ => rfl) himm,
    decode_branch_fields (mk := .bgeu) (fun _ _ _ => rfl) (fun _ _ _ => rfl) himm, fun s =>
      ⟨s.branchIf_completes (cmpLtu_iff _ _) imm, s.branchIf_completes (not_cmpLtu_iff _ _) imm⟩⟩

/-- Settles O31: every transfer faults at such a target; a branch reaches it where its condition holds. -/
theorem misalignedTargetFaults : Obligations.MisalignedTargetFaults := fun s rd _ _ _ =>
  ⟨fun ht =>
    ⟨s.jumpAndLink_misaligned rd ht,
      s.branchIf_misaligned (cmpEq_iff _ _) ht, s.branchIf_misaligned (not_cmpEq_iff _ _) ht,
      s.branchIf_misaligned (cmpLt_iff _ _) ht, s.branchIf_misaligned (not_cmpLt_iff _ _) ht,
      s.branchIf_misaligned (cmpLtu_iff _ _) ht, s.branchIf_misaligned (not_cmpLtu_iff _ _) ht⟩,
    s.jumpAndLink_misaligned rd, exec_mret_misaligned⟩

end Sys2Proof.Proofs
end

section
/-! PROOFS. Registers, bytes and memory: `x0` (`10_state.md` R21), device and plain bytes (`20_memory.md` R51), the
byte order (R42), and the canonical form of memory. -/

namespace Sys2Proof.Machine

/-! Registers. -/

theorem State.writeReg_zero (s : State) (v : Word) : s.writeReg 0#5 v = s := if_pos rfl

/-! Bytes. -/

/-- A read of a device's byte is its free answer to the current draw (`20_memory.md` R51). -/
theorem State.readByte_device {s : State} {a : Nat} (h : s.isDevice a = true) :
    s.readByte a = Config.deviceByte s.draws a := if_pos h

/-- Bytes written where no device stands are the value's, the least significant first (R42, R45). -/
theorem State.writeBytes_byteAt_plain {s : State} {a n i : Nat} (v : Word) (hi : i < n)
    (hd : s.touchesDevice a n = false) :
    (s.writeBytes a v n).byteAt (a + i) = v.extractLsb' (8 * i) 8 := by
  rw [State.writeBytes_byteAt_inside _ _ _ _ _ hi, State.touchesDevice_false hd i hi]
  rfl

/-- A write leaves no device where none stood: the map is the platform's. -/
theorem State.writeBytes_touchesDevice (s : State) (a : Nat) (v : Word) (n b m : Nat) :
    (s.writeBytes a v n).touchesDevice b m = s.touchesDevice b m :=
  State.touchesDevice_congr (s.writeBytes_plat a v n) b m

/-- A half word read at plain addresses is bits `j` to `j + 15` of the value whose bytes memory holds there. -/
theorem State.read16_of_bytes {s : State} {a j : Nat} {v : Word} (hd0 : s.isDevice a = false)
    (hd1 : s.isDevice (a + 1) = false) (h0 : s.byteAt a = v.extractLsb' j 8)
    (h1 : s.byteAt (a + 1) = v.extractLsb' (j + 8) 8) : s.read16 a = v.extractLsb' j 16 := by
  unfold State.read16
  rw [State.readByte_plain hd1, State.readByte_plain hd0, h0, h1]
  exact slice_join v j 8 8

/-- A word read at plain addresses is the value whose bytes memory holds there. -/
theorem State.read32_of_bytes {s : State} {a : Nat} {v : Word} (hd : s.touchesDevice a 4 = false)
    (h : ∀ i, i < 4 → s.byteAt (a + i) = v.extractLsb' (8 * i) 8) : s.read32 a = v := by
  have h0 : s.byteAt a = v.extractLsb' 0 8 := h 0 (by decide)
  rw [State.read32_plain hd, h 3 (by decide), h 2 (by decide), h 1 (by decide), h0]
  exact word_bytes v

/-! The canonical form. -/

/-- The first entry of a memory is what it lists at that address. -/
theorem Memory.get_head (k : Nat) (b : Byte) (m : Memory) : Memory.get ((k, b) :: m) k = some b := if_pos rfl

theorem Memory.get_tail {k a : Nat} (b : Byte) (m : Memory) (h : k ≠ a) :
    Memory.get ((k, b) :: m) a = m.get a := if_neg h

theorem Memory.wfFrom_cons {lo k : Nat} {b : Byte} {m : Memory} (h : Memory.wfFrom lo ((k, b) :: m) = true) :
    Memory.wfFrom (k + 1) m = true := by
  simp only [Memory.wfFrom, Bool.and_eq_true] at h
  exact h.2

/-- What is listed below the first entry of a canonical memory is nothing. -/
theorem Memory.get_below_head {lo k a : Nat} {b : Byte} {m : Memory}
    (h : Memory.wfFrom lo ((k, b) :: m) = true) (ha : a < k) : Memory.get ((k, b) :: m) a = none :=
  (Memory.get_tail b m (by omega)).trans (Memory.get_below (Memory.wfFrom_cons h) (by omega))

/-- Canonical memories that list the same bytes have the same first entry, and so on down the list. -/
theorem Memory.eq_of_get {m m' : Memory} {lo lo' : Nat} (hm : m.wfFrom lo = true) (hm' : m'.wfFrom lo' = true)
    (h : ∀ a, m.get a = m'.get a) : m = m' := by
  induction m generalizing m' lo lo' with
  | nil =>
    cases m' with
    | nil => rfl
    | cons c' m' => cases (h c'.1).trans (Memory.get_head c'.1 c'.2 m')
  | cons c m ih =>
    obtain ⟨k, b⟩ := c
    cases m' with
    | nil => cases (h k).symm.trans (Memory.get_head k b m)
    | cons c' m' =>
      obtain ⟨k', b'⟩ := c'
      have hhead := h k
      have hhead' := h k'
      rw [Memory.get_head] at hhead hhead'
      rcases Nat.lt_trichotomy k k' with hlt | rfl | hgt
      · cases hhead.trans (Memory.get_below_head hm' hlt)
      · obtain rfl : b = b' := Option.some.inj (hhead.trans (Memory.get_head k b' m'))
        have htail : ∀ a, Memory.get m a = Memory.get m' a := by
          intro a
          by_cases ha : k = a
          · subst ha
            rw [Memory.get_below (Memory.wfFrom_cons hm) (by omega),
              Memory.get_below (Memory.wfFrom_cons hm') (by omega)]
          · rw [← Memory.get_tail b m ha, h a, Memory.get_tail b m' ha]
        rw [ih (Memory.wfFrom_cons hm) (Memory.wfFrom_cons hm') htail]
      · cases hhead'.symm.trans (Memory.get_below_head hm hgt)

end Sys2Proof.Machine

namespace Sys2Proof.Proofs

open Sys2Proof Sys2Proof.Machine

/-- Settles O42: each byte by the rule of a write at plain addresses, each read by the bytes it joins. -/
theorem memoryIsLittleEndian : Obligations.MemoryIsLittleEndian := by
  intro s a v
  constructor
  · intro hd
    have hbyte : ∀ i, i < 2 → (s.writeBytes a v 2).byteAt (a + i) = v.extractLsb' (8 * i) 8 :=
      fun i hi => State.writeBytes_byteAt_plain v hi hd
    have hplain := State.touchesDevice_false ((s.writeBytes_touchesDevice a v 2 a 2).trans hd)
    exact ⟨hbyte 0 (by decide), hbyte 1 (by decide),
      State.read16_of_bytes (hplain 0 (by decide)) (hplain 1 (by decide)) (hbyte 0 (by decide)) (hbyte 1 (by decide))⟩
  · intro hd
    have hbyte : ∀ i, i < 4 → (s.writeBytes a v 4).byteAt (a + i) = v.extractLsb' (8 * i) 8 :=
      fun i hi => State.writeBytes_byteAt_plain v hi hd
    have hd' := (s.writeBytes_touchesDevice a v 4 a 4).trans hd
    have hplain := State.touchesDevice_false hd'
    exact ⟨hbyte 0 (by decide), hbyte 1 (by decide), hbyte 2 (by decide), hbyte 3 (by decide),
      (State.readByte_plain (hplain 0 (by decide))).trans (hbyte 0 (by decide)),
      State.read16_of_bytes (hplain 0 (by decide)) (hplain 1 (by decide)) (hbyte 0 (by decide)) (hbyte 1 (by decide)),
      State.read16_of_bytes (hplain 2 (by decide)) (hplain 3 (by decide)) (hbyte 2 (by decide)) (hbyte 3 (by decide)),
      State.read32_of_bytes hd' hbyte⟩

/-- Settles O44: by induction on the lists, whose first entries agree. -/
theorem canonicalMemoryIsUnique : Obligations.CanonicalMemoryIsUnique := fun _ _ => Memory.eq_of_get

/-- Settles O41: the read and the write of a byte, at a device and at a plain address. -/
theorem deviceBytesAreDraws : Obligations.DeviceBytesAreDraws := fun s a x b =>
  ⟨fun hd => ⟨State.readByte_device hd, by simp [State.writeByte_byteAt, hd]⟩,
    fun hd => ⟨State.readByte_plain hd, by simp [State.writeByte_byteAt, hd]⟩⟩

/-- Settles O54: the rules of a register write at `x0`, at the register written and at another. -/
theorem x0IsHardwiredToZero : Obligations.X0IsHardwiredToZero := fun s v =>
  ⟨s.readReg_zero, s.writeReg_zero v, fun r q hr =>
    ⟨(s.readReg_writeReg_same r v).trans (if_neg hr), s.readReg_writeReg_other r q v⟩⟩

end Sys2Proof.Proofs
end

section
/-! PROOFS. Loads and stores (`42_loads_stores.md`): the faults of the checks, the values that are loaded, and the
instructions put together from the effect of a load and of a store. -/

namespace Sys2Proof.Machine

/-! The checks (R120; `20_memory.md` R46, R53). -/

theorem State.checkAccess_misaligned (s : State) (k : AccessKind) {addr : Word} {n : Nat}
    (h : addr.toNat % n ≠ 0) : s.checkAccess k addr n = some (.misalignedAccess addr n) :=
  if_neg (mt (aligned_iff addr n).1 h)

theorem State.checkAccess_outside {s : State} {k : AccessKind} {addr : Word} {n : Nat}
    (ha : addr.toNat % n = 0) (hb : ∃ j, j < n ∧ s.allowsByte k (addr.toNat + j) = false) :
    s.checkAccess k addr n = some (.accessOutsideMap addr k) := by
  have hmap : ¬ s.allows k addr.toNat n = true := by
    obtain ⟨j, hj, hout⟩ := hb
    rw [State.allows_iff]
    exact fun hall => absurd (hall j hj) (by simp [hout])
  exact (if_pos ((aligned_iff addr n).2 ha)).trans (if_neg hmap)

theorem State.load_fault {s : State} {addr : Word} {n : Nat} {f : Fault} (h : s.checkAccess .read addr n = some f)
    (rd : RegId) (value : State → Nat → Word) : s.load rd addr n value = .fault f := by
  simp only [State.load, h]

theorem State.store_fault {s : State} {addr : Word} {n : Nat} {f : Fault} (h : s.checkAccess .write addr n = some f)
    (v : Word) : s.store addr n v = .fault f := by
  simp only [State.store, h]

theorem State.load_misaligned (s : State) (rd : RegId) (addr : Word) (n : Nat) (value : State → Nat → Word) :
    MisalignedFaults (s.load rd addr n value) addr n :=
  fun h => State.load_fault (s.checkAccess_misaligned .read h) rd value

theorem State.store_misaligned (s : State) (addr : Word) (n : Nat) (v : Word) :
    MisalignedFaults (s.store addr n v) addr n :=
  fun h => State.store_fault (s.checkAccess_misaligned .write h) v

theorem State.load_outside (s : State) (rd : RegId) (addr : Word) (n : Nat) (value : State → Nat → Word) :
    OutsideMapFaults s (s.load rd addr n value) .read addr n :=
  fun ha hb => State.load_fault (State.checkAccess_outside ha hb) rd value

theorem State.store_outside (s : State) (addr : Word) (n : Nat) (v : Word) :
    OutsideMapFaults s (s.store addr n v) .write addr n :=
  fun ha hb => State.store_fault (State.checkAccess_outside ha hb) v

theorem State.allows_one {s : State} {k : AccessKind} {a : Nat} (h : s.allowsByte k a = true) :
    s.allows k a 1 = true := by
  simp only [State.allows, h, Bool.and_true]

/-! Values that are loaded: a value with one more byte below it, as a number (`20_memory.md` R42). -/

theorem append_byte_toNat {n : Nat} (hi : BitVec n) (lo : Byte) :
    (hi ++ lo).toNat = lo.toNat + 256 * hi.toNat := by
  rw [BitVec.toNat_append, ← Nat.shiftLeft_add_eq_or_of_lt lo.isLt, Nat.shiftLeft_eq]
  omega

theorem append_byte_toInt (hi lo : Byte) : (hi ++ lo).toInt = lo.toNat + 256 * hi.toInt := by
  have hlo := lo.isLt
  rw [BitVec.toInt_eq_toNat_cond, BitVec.toInt_eq_toNat_cond, append_byte_toNat]
  split <;> split <;> omega

theorem State.read16_toNat (s : State) (a : Nat) :
    (s.read16 a).toNat = (s.readByte a).toNat + 256 * (s.readByte (a + 1)).toNat :=
  append_byte_toNat _ _

theorem State.read16_toInt (s : State) (a : Nat) :
    (s.read16 a).toInt = (s.readByte a).toNat + 256 * (s.readByte (a + 1)).toInt :=
  append_byte_toInt _ _

theorem State.read32_toNat (s : State) (a : Nat) :
    (s.read32 a).toNat = (s.readByte a).toNat + 256 * (s.readByte (a + 1)).toNat
      + 65536 * (s.readByte (a + 2)).toNat + 16777216 * (s.readByte (a + 3)).toNat := by
  unfold State.read32
  rw [append_byte_toNat, append_byte_toNat, append_byte_toNat]
  omega

/-! The loads, each an access of its width with its extension (R121 to R125). -/

theorem exec_lb (rd rs1 : RegId) (imm : Word) (s : State) : exec (.lb rd rs1 imm) s =
    s.load rd (s.readReg rs1 + imm) 1 fun s a => (s.read8 a).signExtend 32 := rfl

theorem exec_lbu (rd rs1 : RegId) (imm : Word) (s : State) : exec (.lbu rd rs1 imm) s =
    s.load rd (s.readReg rs1 + imm) 1 fun s a => (s.read8 a).setWidth 32 := rfl

theorem exec_lh (rd rs1 : RegId) (imm : Word) (s : State) : exec (.lh rd rs1 imm) s =
    s.load rd (s.readReg rs1 + imm) 2 fun s a => (s.read16 a).signExtend 32 := rfl

theorem exec_lhu (rd rs1 : RegId) (imm : Word) (s : State) : exec (.lhu rd rs1 imm) s =
    s.load rd (s.readReg rs1 + imm) 2 fun s a => (s.read16 a).setWidth 32 := rfl

theorem exec_lw (rd rs1 : RegId) (imm : Word) (s : State) : exec (.lw rd rs1 imm) s =
    s.load rd (s.readReg rs1 + imm) 4 State.read32 := rfl

/-! The effect of an access. -/

/-- A load that passes its checks has the whole effect of a load, with what is known of the value loaded. -/
theorem State.load_of_value {s : State} {addr : Word} {n : Nat} {value : State → Nat → Word} {P : Word → Prop}
    (rd : RegId) (ha : addr.toNat % n = 0) (hm : s.allows .read addr.toNat n = true) (hv : P (value s addr.toNat)) :
    ∃ t v, s.load rd addr n value = .next t ∧ LoadResult s t rd addr n v ∧ P v := by
  obtain ⟨t, hload, hresult⟩ := s.load_result rd addr n value ha hm
  exact ⟨t, _, hload, hresult, hv⟩

/-- A load to `x0` leaves every register as it was (R129). -/
theorem LoadResult.sameRegs_of_x0 {s t : State} {addr : Word} {n : Nat} {v : Word}
    (h : LoadResult s t 0#5 addr n v) : SameRegs s t := by
  intro r
  by_cases hr : r = 0#5
  · rw [hr, State.readReg_zero, State.readReg_zero]
  · exact h.others r hr

/-- A load to `x0` that touches a device still makes its one access (R129). -/
theorem State.load_x0_event {s : State} {addr : Word} {n : Nat} (value : State → Nat → Word)
    (ha : addr.toNat % n = 0) (hm : s.allows .read addr.toNat n = true)
    (hd : s.touchesDevice addr.toNat n = true) :
    ∃ t, s.load 0#5 addr n value = .next t ∧ t.events = .read addr n :: s.events ∧ SameRegs s t := by
  obtain ⟨t, hload, hresult⟩ := s.load_result 0#5 addr n value ha hm
  exact ⟨t, hload, (hresult.devices.1 hd).1, hresult.sameRegs_of_x0⟩

/-- A store that answers a next state was aligned and allowed, and has the whole effect of a store. -/
theorem State.store_inversion {s t : State} {addr : Word} {n : Nat} {v : Word} (h : s.store addr n v = .next t) :
    addr.toNat % n = 0 ∧ StoreResult s t addr n v := by
  obtain ⟨ha, hm⟩ := (State.checkAccess_none _ _ _ _).1 ((State.store_next_iff _ _ _ _ _).1 h).1
  obtain ⟨u, hstore, hresult⟩ := s.store_result addr n v ha hm
  obtain rfl : u = t := Host.Outcome.next.inj (hstore.symm.trans h)
  exact ⟨ha, hresult⟩

/-- After a store of a word at plain addresses, a read of the word is the value stored. -/
theorem StoreResult.read32 {s t : State} {addr v : Word} (h : StoreResult s t addr 4 v)
    (hd : s.touchesDevice addr.toNat 4 = false) : t.read32 addr.toNat = v :=
  State.read32_of_bytes ((State.touchesDevice_congr h.inputs.2 _ _).trans hd)
    fun i hi => h.written i hi (State.touchesDevice_false hd i hi)

end Sys2Proof.Machine

namespace Sys2Proof

/-- A word put together from the fields of format S decodes to the store `mk` of its `funct3` (R64). -/
theorem decode_store_fields {f3 : BitVec 3} {mk : RegId → RegId → Word → Instr}
    (hwf : ∀ rs2 rs1 imm, (mk rs2 rs1 imm).wf = immFits12 imm)
    (hencode : ∀ rs2 rs1 imm, encode (mk rs2 rs1 imm) = encodeS imm rs2 rs1 f3 0b0100011#7)
    {rs2 rs1 : RegId} {hi : BitVec 7} {lo : BitVec 5} {imm : Word}
    (himm : imm = (hi ++ lo : BitVec 12).signExtend 32) :
    decode (hi ++ rs2 ++ rs1 ++ f3 ++ lo ++ 0b0100011#7) = .ok (mk rs2 rs1 imm) := by
  subst himm
  exact decode_of_encode_eq ((hwf _ _ _).trans (immFits12_fields _))
    ((hencode _ _ _).trans (encodeS_fields _ _ _ _ _ _))

end Sys2Proof

namespace Sys2Proof.Proofs

open Sys2Proof Sys2Proof.Machine

/-- Settles O32: the byte read, sign- or zero-extended, keeps its signed or unsigned value. -/
theorem loadByte : Obligations.LoadByte := by
  refine fun rd rs1 imm =>
    ⟨decode_of_encode_eq (i := .lb rd rs1 _) (immFits12_fields imm) (encodeI_fields _ _ _ _ _),
      decode_of_encode_eq (i := .lbu rd rs1 _) (immFits12_fields imm) (encodeI_fields _ _ _ _ _), ?_⟩
  rintro s a rfl hb
  rw [exec_lb, exec_lbu]
  exact ⟨State.load_of_value rd (Nat.mod_one _) (State.allows_one hb) (BitVec.toInt_signExtend_of_le (by decide)),
    State.load_of_value rd (Nat.mod_one _) (State.allows_one hb) (BitVec.toNat_setWidth_of_le (by decide))⟩

/-- Settles O33: the half word read is its two bytes as a number, and extension keeps it. -/
theorem loadHalfWord : Obligations.LoadHalfWord := by
  refine fun rd rs1 imm =>
    ⟨decode_of_encode_eq (i := .lh rd rs1 _) (immFits12_fields imm) (encodeI_fields _ _ _ _ _),
      decode_of_encode_eq (i := .lhu rd rs1 _) (immFits12_fields imm) (encodeI_fields _ _ _ _ _), ?_⟩
  rintro s a rfl ha hb
  have hm := (State.allows_iff _ _ _ _).2 hb
  rw [exec_lh, exec_lhu]
  exact ⟨State.load_of_value rd ha hm ((BitVec.toInt_signExtend_of_le (by decide)).trans (s.read16_toInt _)),
    State.load_of_value rd ha hm ((BitVec.toNat_setWidth_of_le (by decide)).trans (s.read16_toNat _))⟩

/-- Settles O34: the word read is its four bytes as a number. -/
theorem loadWord : Obligations.LoadWord := by
  refine fun rd rs1 imm =>
    ⟨decode_of_encode_eq (i := .lw rd rs1 _) (immFits12_fields imm) (encodeI_fields _ _ _ _ _), ?_⟩
  rintro s a rfl ha hb
  exact State.load_of_value rd ha ((State.allows_iff _ _ _ _).2 hb) (s.read32_toNat _)

/-- Settles O35: the effect of a store of one byte. -/
theorem storeByte : Obligations.StoreByte := by
  refine fun rs2 rs1 hi lo imm himm =>
    ⟨decode_store_fields (mk := .sb) (fun _ _ _ => rfl) (fun _ _ _ => rfl) himm, ?_⟩
  rintro s a rfl hb
  exact s.store_result _ 1 _ (Nat.mod_one _) (State.allows_one hb)

/-- Settles O36: the effect of a store of two bytes. -/
theorem storeHalfWord : Obligations.StoreHalfWord := by
  refine fun rs2 rs1 hi lo imm himm =>
    ⟨decode_store_fields (mk := .sh) (fun _ _ _ => rfl) (fun _ _ _ => rfl) himm, ?_⟩
  rintro s a rfl ha hb
  exact s.store_result _ 2 _ ha ((State.allows_iff _ _ _ _).2 hb)

/-- Settles O37: the effect of a store of four bytes. -/
theorem storeWord : Obligations.StoreWord := by
  refine fun rs2 rs1 hi lo imm himm =>
    ⟨decode_store_fields (mk := .sw) (fun _ _ _ => rfl) (fun _ _ _ => rfl) himm, ?_⟩
  rintro s a rfl ha hb
  exact s.store_result _ 4 _ ha ((State.allows_iff _ _ _ _).2 hb)

/-- Settles O38: the alignment check comes first, in every load and store. -/
theorem misalignedDataFaults : Obligations.MisalignedDataFaults := by
  rintro s r rs1 imm a rfl
  rw [exec_lh, exec_lhu, exec_lw]
  exact ⟨s.load_misaligned r _ 2 _, s.load_misaligned r _ 2 _, s.store_misaligned _ 2 _,
    s.load_misaligned r _ 4 _, s.store_misaligned _ 4 _⟩

/-- Settles O39: an aligned access comes to the check of the map, in every load and store. -/
theorem unmappedDataFaults : Obligations.UnmappedDataFaults := by
  rintro s r rs1 imm a rfl
  rw [exec_lb, exec_lbu, exec_lh, exec_lhu, exec_lw]
  exact ⟨s.load_outside r _ 1 _, s.load_outside r _ 1 _, s.load_outside r _ 2 _, s.load_outside r _ 2 _,
    s.load_outside r _ 4 _, s.store_outside _ 1 _, s.store_outside _ 2 _, s.store_outside _ 4 _⟩

/-- Settles O40: the access of a load does not depend on `rd`, and its write to `x0` is discarded. -/
theorem loadToX0StillAccesses : Obligations.LoadToX0StillAccesses := by
  rintro s rs1 imm a rfl
  rw [exec_lb, exec_lbu, exec_lh, exec_lhu, exec_lw]
  refine ⟨fun hb hd => ?byte, fun ha hm hd => ?half, fun ha hm hd => s.load_x0_event _ ha hm hd⟩
  case byte =>
    have htouch : s.touchesDevice (s.readReg rs1 + imm).toNat 1 = true := by
      simp only [State.touchesDevice, hd, Bool.true_or]
    exact ⟨s.load_x0_event _ (Nat.mod_one _) (State.allows_one hb) htouch,
      s.load_x0_event _ (Nat.mod_one _) (State.allows_one hb) htouch⟩
  case half => exact ⟨s.load_x0_event _ ha hm hd, s.load_x0_event _ ha hm hd⟩

/-- Settles O43: the store leaves the map and the register's value in memory, so the load passes its checks and reads
that value. -/
theorem loadReturnsTheLatestStore : Obligations.LoadReturnsTheLatestStore := by
  intro s t rd rs2 rs1 imm hsw hm hd
  obtain ⟨ha, hstored⟩ := State.store_inversion hsw
  have hm' := (State.allows_congr hstored.inputs.2 .read (s.readReg rs1 + imm).toNat 4).trans hm
  obtain ⟨u, hload, hresult⟩ := t.load_result rd (s.readReg rs1 + imm) 4 State.read32 ha hm'
  rw [exec_lw, hstored.regs rs1]
  exact ⟨u, hload, hresult.result.trans (congrArg _ (hstored.read32 hd))⟩

end Sys2Proof.Proofs
end

section
/-! PROOFS. The fetch (`20_memory.md` R47, R48, R53, R58): the faults in the order of `60_exceptions.md` R161, what a
fetch that raises none leaves, and the step that runs the decoded instruction. -/

namespace Sys2Proof.Machine

/-! The faults of a fetch. -/

theorem State.fetch_misaligned {s : State} (h : s.pc.toNat % 4 ≠ 0) : s.fetch = .error (.misalignedTarget s.pc) :=
  if_neg (mt (aligned_iff s.pc 4).1 h)

theorem State.fetch_outside {s : State} (ha : s.pc.toNat % 4 = 0) (hm : s.allows .fetch s.pc.toNat 4 = false) :
    s.fetch = .error (.accessOutsideMap s.pc .fetch) := by
  simp only [State.fetch, (aligned_iff s.pc 4).2 ha, hm, if_true, Bool.false_eq_true, if_false]

theorem State.fetch_forbidden {s : State} (ha : s.pc.toNat % 4 = 0) (hm : s.allows .fetch s.pc.toNat 4 = true)
    (hp : s.smcForbids = true) : s.fetch = .error (.fetchOfModifiedCode s.pc) := by
  simp only [State.fetch, (aligned_iff s.pc 4).2 ha, hm, hp, if_true]

theorem State.allows_false_of_byte {s : State} {k : AccessKind} {a n : Nat}
    (h : ∃ j, j < n ∧ s.allowsByte k (a + j) = false) : s.allows k a n = false := by
  obtain ⟨j, hj, hout⟩ := h
  refine Bool.eq_false_iff.2 fun hall => ?_
  exact Bool.eq_false_iff.1 hout ((s.allows_iff k a n).1 hall j hj)

/-- Under `refuse`, the policy forbids a fetch of a byte that was stored. -/
theorem State.smcForbids_of_stored {s : State} (hp : s.plat.smc = .refuse)
    (h : ∃ k, k < 4 ∧ AddrSet.has s.stored (s.pc.toNat + k) = true) : s.smcForbids = true := by
  obtain ⟨k, hk, hstored⟩ := h
  refine Bool.eq_true_of_not_eq_false fun hfree => ?_
  rcases s.smcForbids_false.1 hfree with hcoherent | hnone
  · cases hp.symm.trans hcoherent
  · exact Bool.eq_false_iff.1 (hnone k hk) hstored

/-- A fetch in plain memory that raises no fault reads the word there and changes nothing. -/
theorem State.fetch_plain {s : State} {w : Word} (ha : s.pc.toNat % 4 = 0)
    (hm : s.allows .fetch s.pc.toNat 4 = true) (hp : s.smcForbids = false)
    (hd : s.touchesDevice s.pc.toNat 4 = false) (hw : s.read32 s.pc.toNat = w) : s.fetch = .ok (w, s) :=
  (State.fetch_ok_iff s s w).2 ⟨ha, hm, hp, hw, State.noteAccess_plain _ _ _ _ hd⟩

/-! The step from its fetch. -/

theorem step_of_fetch_error {s : State} {f : Fault} (h : s.fetch = .error f) : step s = .fault f := by
  simp only [step, h]

/-- A step is the decoded instruction at the state the fetch left, and the end of the step (R170). -/
theorem step_of_decode {s s1 : State} {w : Word} {i : Instr} (hf : s.fetch = .ok (w, s1))
    (hd : decode w = .ok i) : step s = mapNext s1.retire (exec i s1) := by
  simp only [step, hf, hd]
  cases exec i s1 <;> rfl

end Sys2Proof.Machine

namespace Sys2Proof.Proofs

open Sys2Proof Sys2Proof.Machine

/-- Settles O12: the three faults in order, and the inversion of a fetch that raises none, whose one effect is on the
device record. -/
theorem fetchChecksInOrder : Obligations.FetchChecksInOrder := by
  refine fun s => ⟨fun ha => ?misaligned, fun ha hout => ?outside, fun ha hin hpol hst => ?modified,
    fun ha hin hpol => ?read⟩
  case misaligned => exact step_of_fetch_error (State.fetch_misaligned ha)
  case outside => exact step_of_fetch_error (State.fetch_outside ha (State.allows_false_of_byte hout))
  case modified =>
    have hm := (s.allows_iff .fetch s.pc.toNat 4).2 hin
    exact step_of_fetch_error (State.fetch_forbidden ha hm (State.smcForbids_of_stored hpol hst))
  case read =>
    have hm := (s.allows_iff .fetch s.pc.toNat 4).2 hin
    exact ⟨_, (State.fetch_ok_iff s _ _).2 ⟨ha, hm, s.smcForbids_false.2 hpol, rfl, rfl⟩,
      s.noteAccess_record _ _ _, s.noteAccess_readReg _ _ _, ⟨s.noteAccess_mepc _ _ _, s.noteAccess_ni _ _ _⟩,
      ⟨s.noteAccess_byteAt _ _ _, s.noteAccess_stored _ _ _⟩,
      ⟨s.noteAccess_irq _ _ _, s.noteAccess_plat _ _ _⟩, s.noteAccess_pc _ _ _⟩

/-- Settles O13: the store recorded the word's addresses, which `refuse` forbids to fetch, and left the register's
value in memory, which `coherent` reads. -/
theorem fetchOfStoredWordFollowsPolicy : Obligations.FetchOfStoredWordFollowsPolicy := by
  intro s t rs2 rs1 imm hsw hm
  obtain ⟨ha, hstored⟩ := State.store_inversion hsw
  have hplat : t.plat = s.plat := hstored.inputs.2
  constructor
  · intro hpol
    have hrecorded : AddrSet.has t.stored ((s.readReg rs1 + imm).toNat + 0) = true :=
      (hstored.recorded _).2 (.inr (by simp [State.effAddr, addWord]))
    exact State.fetch_forbidden (s := t.setPc (s.readReg rs1 + imm)) ha hm
      (State.smcForbids_of_stored (hplat ▸ hpol) ⟨0, by decide, hrecorded⟩)
  · intro hpol hd
    exact State.fetch_plain (s := t.setPc (s.readReg rs1 + imm)) ha hm
      ((State.smcForbids_false _).2 (.inl (hplat ▸ hpol)))
      ((State.touchesDevice_congr hplat _ _).trans hd) (hstored.read32 hd)

/-- Settles O11: at plain addresses the fetch leaves the state as it is; the second clause is the step itself. -/
theorem stepRunsTheDecodedInstruction : Obligations.StepRunsTheDecodedInstruction :=
  ⟨fun s _ ha hm hpol hd hi =>
    step_of_decode (State.fetch_plain ha hm (s.smcForbids_false.2 hpol) hd (State.read32_plain hd)) hi,
    fun _ _ _ _ => step_of_decode⟩

end Sys2Proof.Proofs
end

section
/-! PROOFS. The interrupt over a step (`60_exceptions.md` R162 to R178): the entry at the end of an instruction, the
return by MRET, and the non-interruptible mode. -/

namespace Sys2Proof.Machine

/-! What a fetch leaves as it was. -/

/-- The state after a fetch is the one before it, with its access noted. -/
theorem State.fetch_next {s s1 : State} {w : Word} (h : s.fetch = .ok (w, s1)) :
    s1 = s.noteAccess s.pc.toNat 4 (.fetch s.pc) := by
  obtain ⟨-, -, -, -, hs1⟩ := (State.fetch_ok_iff s s1 w).1 h
  exact hs1.symm

theorem State.fetch_keeps_pc {s s1 : State} {w : Word} (h : s.fetch = .ok (w, s1)) : s1.pc = s.pc := by
  rw [State.fetch_next h, State.noteAccess_pc]

theorem State.fetch_keeps_ni {s s1 : State} {w : Word} (h : s.fetch = .ok (w, s1)) : s1.ni = s.ni := by
  rw [State.fetch_next h, State.noteAccess_ni]

theorem State.fetch_keeps_irq {s s1 : State} {w : Word} (h : s.fetch = .ok (w, s1)) : s1.irq = s.irq := by
  rw [State.fetch_next h, State.noteAccess_irq]

theorem State.fetch_sameRegs {s s1 : State} {w : Word} (h : s.fetch = .ok (w, s1)) : SameRegs s s1 := by
  rw [State.fetch_next h]
  exact s.noteAccess_readReg _ _ _

theorem State.fetch_sameMemory {s s1 : State} {w : Word} (h : s.fetch = .ok (w, s1)) : SameMemory s s1 := by
  rw [State.fetch_next h]
  exact ⟨s.noteAccess_byteAt _ _ _, s.noteAccess_stored _ _ _⟩

theorem State.fetch_pc_aligned {s s1 : State} {w : Word} (h : s.fetch = .ok (w, s1)) : s.pc.toNat % 4 = 0 :=
  ((State.fetch_ok_iff s s1 w).1 h).1

/-! The requests. -/

theorem State.irqNow_congr {s t : State} (h : t.irq = s.irq) : t.irqNow = s.irqNow := by
  simp only [State.irqNow, h]

theorem State.irqNow_of_cons {s : State} {r : Bool} {rest : List Bool} (h : s.irq = r :: rest) : s.irqNow = r := by
  simp only [State.irqNow, h]

theorem State.irqLater_eq_tail (s : State) : s.irqLater = s.irq.tail := by
  unfold State.irqLater
  cases s.irq <;> rfl

/-! The end of a step. -/

/-- The state `s` with the requests that follow the current one of `s0`: one request is used up (R162). -/
def State.afterRequest (s s0 : State) : State := { s with irq := s0.irq.tail }

theorem State.retire_entry {s0 : State} (s1 : State) (hreq : s0.irqNow = true) (hni : s0.ni = false) :
    s0.retire s1 = (s1.afterRequest s0).takeInterrupt := by
  simp only [State.retire, hreq, hni, State.irqLater_eq_tail, State.afterRequest, Bool.not_false, Bool.and_true,
    if_true]

theorem State.retire_quiet {s0 : State} (s1 : State) (h : s0.ni = true ∨ s0.irqNow = false) :
    s0.retire s1 = s1.afterRequest s0 := by
  have hcond : (s0.irqNow && !s0.ni) = false := by rcases h with h | h <;> simp [h]
  simp only [State.retire, hcond, State.irqLater_eq_tail, State.afterRequest, Bool.false_eq_true, if_false]

section
variable {s s1 s2 : State} {w : Word} {i : Instr} (hf : s.fetch = .ok (w, s1)) (hd : decode w = .ok i)
  (he : exec i s1 = .next s2)
include hf hd he

/-- A step with a request in the interruptible mode: the instruction, then the entry (R170 to R172). -/
theorem step_entry (hreq : s.irqNow = true) (hni : s.ni = false) :
    step s = .next (s2.afterRequest s).takeInterrupt := by
  refine (step_next_iff _ _).2 ⟨w, s1, i, s2, hf, hd, he, ?_⟩
  rw [State.retire_entry s2 ((State.irqNow_congr (State.fetch_keeps_irq hf)).trans hreq)
    ((State.fetch_keeps_ni hf).trans hni), State.afterRequest, State.afterRequest, State.fetch_keeps_irq hf]

/-- A step in the non-interruptible mode or without a request is the instruction alone (R164). -/
theorem step_quiet (h : s.ni = true ∨ s.irqNow = false) : step s = .next (s2.afterRequest s) := by
  refine (step_next_iff _ _).2 ⟨w, s1, i, s2, hf, hd, he, ?_⟩
  rw [← State.fetch_keeps_ni hf, ← State.irqNow_congr (State.fetch_keeps_irq hf)] at h
  rw [State.retire_quiet s2 h, State.afterRequest, State.afterRequest, State.fetch_keeps_irq hf]

end

/-! The mode and `pc` after an instruction. -/

/-- MRET leaves the non-interruptible mode and goes to `mepc`; every other instruction keeps the mode (R175). -/
theorem exec_ni_cases {i : Instr} {s t : State} (h : exec i s = .next t) :
    t.ni = s.ni ∨ (i = .mret ∧ t.ni = false ∧ t.pc = s.mepc) := by
  cases exec_shape h with
  | result _ _ _ eq | jump _ _ _ _ eq | branch _ _ eq | load _ _ _ _ _ _ _ eq | store _ _ _ _ _ eq =>
    exact .inl (by simp [eq])
  | mret isMret _ eq => exact .inr ⟨isMret, by simp [eq], by simp [eq]⟩

theorem exec_keeps_ni {i : Instr} {s t : State} (hi : i ≠ .mret) (h : exec i s = .next t) : t.ni = s.ni :=
  (exec_ni_cases h).resolve_right fun ⟨isMret, _⟩ => hi isMret

/-- A completed instruction leaves `pc` at a multiple of 4 (`10_state.md` R27). -/
theorem exec_pc_aligned {i : Instr} {s t : State} (hs : s.pc.toNat % 4 = 0) (h : exec i s = .next t) :
    t.pc.toNat % 4 = 0 := by
  cases exec_shape h with
  | result _ _ _ eq | load _ _ _ _ _ _ _ eq | store _ _ _ _ _ eq => exact eq ▸ plus4_aligned hs
  | jump _ _ _ aligned eq | mret _ aligned eq => exact eq ▸ aligned
  | branch _ aligned eq =>
    rcases aligned with ha | rfl
    · exact eq ▸ ha
    · exact eq ▸ plus4_aligned hs

/-! MRET in a step (R175, R178). -/

/-- A fetched MRET executes at the state the fetch left, whose `mepc` is the one before it. -/
theorem exec_fetched_mret {s s1 : State} {w : Word} (hf : s.fetch = .ok (w, s1)) (ha : s.mepc.toNat % 4 = 0) :
    exec .mret s1 = .next s1.returnFromInterrupt :=
  exec_mret_aligned ((State.fetch_keeps_mepc hf).symm ▸ ha)

/-- MRET in a handler returns, whatever is requested (R178 a). -/
theorem step_mret_in_handler {s s1 : State} (hf : s.fetch = .ok (mretWord, s1)) (ha : s.mepc.toNat % 4 = 0)
    (hni : s.ni = true) : step s = .next (s1.returnFromInterrupt.afterRequest s) :=
  step_quiet hf decode_mretWord (exec_fetched_mret hf ha) (.inl hni)

/-- MRET outside a handler, with a request, returns and enters at once (R178 b). -/
theorem step_mret_outside_handler {s s1 : State} (hf : s.fetch = .ok (mretWord, s1)) (ha : s.mepc.toNat % 4 = 0)
    (hreq : s.irqNow = true) (hni : s.ni = false) :
    step s = .next (s1.returnFromInterrupt.afterRequest s).takeInterrupt :=
  step_entry hf decode_mretWord (exec_fetched_mret hf ha) hreq hni

/-! The mode as data that no instruction reads. -/

/-- `ni` is not seen, whatever registers an instruction names. -/
theorem invisibleTo_setNi (regs : List RegId) (b : Bool) : InvisibleTo regs (fun t => { t with ni := b }) where
  pc_eq _ := rfl
  plat_eq _ := rfl
  mem_eq _ := rfl
  draws_eq _ := rfl
  readReg_eq _ _ _ := rfl
  setPc_comm _ _ := rfl
  writeReg_comm s r v _ := by unfold State.writeReg; split <;> rfl
  noteAccess_comm s a n e := by
    have hplat : ({ s with ni := b } : State).plat = s.plat := rfl
    simp only [State.noteAccess, State.touchesDevice_congr hplat]
    split <;> rfl
  writeByte_comm _ _ _ := rfl

end Sys2Proof.Machine

namespace Sys2Proof.Proofs

open Sys2Proof Sys2Proof.Machine

/-- Settles O46: the step is the instruction and then the entry, whose rules give the rest. -/
theorem requestIsTakenAfterTheInstruction : Obligations.RequestIsTakenAfterTheInstruction := by
  intro s s1 s2 w i hf hd he rest hirq hni
  have hlater : s.irq.tail = rest := by rw [hirq, List.tail_cons]
  exact ⟨_, step_entry hf hd he (State.irqNow_of_cons hirq) hni, rfl, rfl, rfl, fun _ => rfl, ⟨fun _ => rfl, rfl⟩,
    ⟨rfl, rfl⟩, hlater, rfl⟩

/-- Settles O47: the step is the instruction alone, with the request used up. -/
theorem noEntryWhenMaskedOrQuiet : Obligations.NoEntryWhenMaskedOrQuiet := fun _ _ _ _ _ hf hd he h =>
  ⟨_, step_quiet hf hd he h, rfl, fun _ => rfl, ⟨rfl, rfl⟩, ⟨fun _ => rfl, rfl⟩, ⟨rfl, rfl⟩, rfl, rfl⟩

/-- Settles O48: MRET is decoded from its one word and is the return from the interrupt, field by field; every other
instruction keeps the mode, by its shape. -/
theorem returnFromInterrupt : Obligations.ReturnFromInterrupt :=
  ⟨decode_of_encode_eq (i := .mret) rfl rfl,
    fun s ha => ⟨_, exec_mret_aligned ha, s.returnFromInterrupt_pc, s.returnFromInterrupt_ni,
      s.returnFromInterrupt_mepc, s.returnFromInterrupt_readReg,
      ⟨s.returnFromInterrupt_byteAt, s.returnFromInterrupt_stored⟩,
      ⟨s.returnFromInterrupt_events, s.returnFromInterrupt_draws⟩,
      ⟨s.returnFromInterrupt_irq, s.returnFromInterrupt_plat⟩⟩,
    fun _ _ _ => exec_keeps_ni⟩

/-- Settles O49: by the mode before MRET, which is the one tested: the return alone, or the return and the entry. -/
theorem requestDuringMret : Obligations.RequestDuringMret := by
  intro s s1 hf hreq ha
  have hmepc := State.fetch_keeps_mepc hf
  have hregs := State.fetch_sameRegs hf
  have hmem := State.fetch_sameMemory hf
  cases hni : s.ni with
  | true => exact ⟨_, step_mret_in_handler hf ha hni, hmepc, hregs, hmem, fun _ => ⟨hmepc, rfl⟩, nofun⟩
  | false => exact ⟨_, step_mret_outside_handler hf ha hreq hni, hmepc, hregs, hmem, nofun, fun _ => ⟨rfl, rfl⟩⟩

/-- Settles O50: the entry saves the `pc` of the instruction's end, a multiple of 4, and MRET in the handler returns
to it. -/
theorem handlerReturnsWhereItWasTaken : Obligations.HandlerReturnsWhereItWasTaken := by
  intro s s1 s2 t t1 w i hf hd he hreq hni hstep hmret
  obtain rfl : (s2.afterRequest s).takeInterrupt = t :=
    Host.Outcome.next.inj ((step_entry hf hd he hreq hni).symm.trans hstep)
  have haligned : s2.pc.toNat % 4 = 0 :=
    exec_pc_aligned ((State.fetch_keeps_pc hf).symm ▸ State.fetch_pc_aligned hf) he
  have hmepc := State.fetch_keeps_mepc hmret
  have hregs := State.fetch_sameRegs hmret
  have hmem := State.fetch_sameMemory hmret
  exact ⟨_, step_mret_in_handler hmret haligned rfl, hmepc, hmepc, rfl, hregs, hmem⟩

/-- Settles O52: the end of a step changes the mode by the entry alone, an instruction by MRET alone, whose word is
one; and the mode is data that no instruction reads. -/
theorem niOnlyEntrySetsOnlyMretClears : Obligations.NiOnlyEntrySetsOnlyMretClears := by
  refine ⟨fun s t h hclear hset => ?sets, fun s t h hset hclear => ?clears,
    fun i s b hi => (invisibleTo_setNi _ b).exec_comm hi s, fun _ _ => rfl⟩
  case sets =>
    obtain ⟨w, s1, i, s2, hf, -, he, rfl⟩ := (step_next_iff s t).1 h
    rcases s1.retire_cases s2 with ⟨hreq, -, heq⟩ | ⟨-, heq⟩ <;> rw [heq] at hset ⊢
    · exact ⟨(State.irqNow_congr (State.fetch_keeps_irq hf)).symm.trans hreq, rfl⟩
    · have hkept : s2.ni = false := by
        rcases exec_ni_cases he with hsame | ⟨-, hmret, -⟩
        · rw [hsame, State.fetch_keeps_ni hf, hclear]
        · exact hmret
      cases hkept.symm.trans hset
  case clears =>
    obtain ⟨w, s1, i, s2, hf, hd, he, rfl⟩ := (step_next_iff s t).1 h
    have hni1 : s1.ni = true := (State.fetch_keeps_ni hf).trans hset
    rw [State.retire_quiet s2 (.inl hni1)] at hclear ⊢
    rcases exec_ni_cases he with hsame | ⟨rfl, -, hpc⟩
    · cases (hsame.trans hni1).symm.trans hclear
    · obtain ⟨-, rfl⟩ := encode_decode hd
      exact ⟨s1, hf, hpc.trans (State.fetch_keeps_mepc hf)⟩

end Sys2Proof.Proofs
end

section
/-! PROOFS. Rules of the whole machine: the registers that an instruction names are those it reads and writes
(`10_state.md` R24), and every instruction has a meaning (`60_exceptions.md` R161). -/

namespace Sys2Proof.Machine

/-! A register that an instruction does not name. -/

theorem State.writeReg_writeReg_comm (s : State) {r q : RegId} (h : q ≠ r) (v u : Word) :
    (s.writeReg r v).writeReg q u = (s.writeReg q u).writeReg r v := by
  have hne : q.toNat ≠ r.toNat := mt BitVec.eq_of_toNat_eq h
  unfold State.writeReg
  by_cases hr : r = 0#5
  · simp only [hr, if_true]
  · by_cases hq : q = 0#5
    · simp only [hq, if_true]
    · simp only [hr, hq, if_false, Vector.set_comm _ _ hne]

/-- A write of a register is not seen by an instruction that does not name it. -/
theorem invisibleTo_writeReg {regs : List RegId} {r : RegId} (hr : r ∉ regs) (v : Word) :
    InvisibleTo regs (fun t => t.writeReg r v) where
  pc_eq s := s.writeReg_pc r v
  plat_eq s := s.writeReg_plat r v
  mem_eq s := s.writeReg_mem r v
  draws_eq s := s.writeReg_draws r v
  readReg_eq s _ hq := s.readReg_writeReg_other r _ v (ne_of_mem_of_not_mem hq hr)
  setPc_comm s t := by unfold State.writeReg; split <;> rfl
  writeReg_comm s _ u hq := s.writeReg_writeReg_comm (ne_of_mem_of_not_mem hq hr) v u
  noteAccess_comm s a n e := by
    simp only [State.noteAccess, State.touchesDevice_congr (s.writeReg_plat r v), State.writeReg_events,
      State.writeReg_draws]
    unfold State.writeReg
    split <;> split <;> rfl
  writeByte_comm s a b := by
    simp only [State.writeByte, State.isDevice_congr (s.writeReg_plat r v), State.writeReg_mem,
      State.writeReg_stored]
    unfold State.writeReg
    split <;> rfl

/-- MRET neither reads nor writes a general register. -/
theorem exec_mret_writeReg (s : State) (r : RegId) (v : Word) :
    exec .mret (s.writeReg r v) = mapNext (fun t => t.writeReg r v) (exec .mret s) := by
  have hreturn : (s.writeReg r v).returnFromInterrupt = s.returnFromInterrupt.writeReg r v := by
    unfold State.writeReg
    split <;> rfl
  simp only [exec, execMret, State.writeReg_mepc, hreturn]
  split <;> rfl

/-! What an instruction can answer. -/

/-- The result is a next state, or a fault of a data access or of a target. -/
def CompletesOrFaults (r : Result) : Prop :=
  (∃ t, r = .next t) ∨ (∃ a n, r = .fault (.misalignedAccess a n)) ∨ (∃ a, r = .fault (.misalignedTarget a)) ∨
  (∃ a k, r = .fault (.accessOutsideMap a k))

theorem CompletesOrFaults.transfer (s : State) (target : Word) : CompletesOrFaults (s.transfer target) := by
  by_cases ht : target.toNat % 4 = 0
  · exact .inl ⟨_, (State.transfer_next_iff _ _ _).2 ⟨ht, rfl⟩⟩
  · exact .inr (.inr (.inl ⟨_, s.transfer_misaligned ht⟩))

theorem CompletesOrFaults.branchIf (s : State) (c : Bool) (imm : Word) : CompletesOrFaults (s.branchIf c imm) := by
  cases c with
  | true => exact .transfer s (s.pcRel imm)
  | false => exact .inl ⟨_, rfl⟩

theorem CompletesOrFaults.mret (s : State) : CompletesOrFaults (exec .mret s) := by
  by_cases ha : s.mepc.toNat % 4 = 0
  · exact .inl ⟨_, exec_mret_aligned ha⟩
  · exact .inr (.inr (.inl ⟨_, exec_mret_misaligned ha⟩))

/-- The checks on a data access pass, or answer one of its two faults. -/
theorem State.checkAccess_cases (s : State) (k : AccessKind) (addr : Word) (n : Nat) :
    s.checkAccess k addr n = none ∨ s.checkAccess k addr n = some (.misalignedAccess addr n) ∨
    s.checkAccess k addr n = some (.accessOutsideMap addr k) := by
  unfold State.checkAccess
  split
  · split
    · exact .inl rfl
    · exact .inr (.inr rfl)
  · exact .inr (.inl rfl)

theorem CompletesOrFaults.load (s : State) (rd : RegId) (addr : Word) (n : Nat) (value : State → Nat → Word) :
    CompletesOrFaults (s.load rd addr n value) := by
  rcases s.checkAccess_cases .read addr n with hnone | hmis | hout
  · exact .inl ⟨_, (State.load_next_iff _ _ _ _ _ _).2 ⟨hnone, rfl⟩⟩
  · exact .inr (.inl ⟨_, _, State.load_fault hmis rd value⟩)
  · exact .inr (.inr (.inr ⟨_, _, State.load_fault hout rd value⟩))

theorem CompletesOrFaults.store (s : State) (addr : Word) (n : Nat) (v : Word) :
    CompletesOrFaults (s.store addr n v) := by
  rcases s.checkAccess_cases .write addr n with hnone | hmis | hout
  · exact .inl ⟨_, (State.store_next_iff _ _ _ _ _).2 ⟨hnone, rfl⟩⟩
  · exact .inr (.inl ⟨_, _, State.store_fault hmis v⟩)
  · exact .inr (.inr (.inr ⟨_, _, State.store_fault hout v⟩))

theorem exec_completesOrFaults (i : Instr) (s : State) : CompletesOrFaults (exec i s) := by
  cases i with
  | lui | auipc | addi | slli | slti | sltiu | xori | srli | srai | ori | andi | add | sub | sll | slt | sltu
  | xor | srl | sra | or | and => exact .inl ⟨_, rfl⟩
  | jal | jalr => exact .transfer _ _
  | beq | bne | blt | bge | bltu | bgeu => exact .branchIf _ _ _
  | lb => rw [exec_lb]; exact .load _ _ _ _ _
  | lbu => rw [exec_lbu]; exact .load _ _ _ _ _
  | lh => rw [exec_lh]; exact .load _ _ _ _ _
  | lhu => rw [exec_lhu]; exact .load _ _ _ _ _
  | lw => rw [exec_lw]; exact .load _ _ _ _ _
  | sb | sh | sw => exact .store _ _ _ _
  | mret => exact .mret s

/-- A step answers a next state or a fault: its fetch and its decoder fault, and its instruction has a meaning. -/
theorem step_next_or_fault (s : State) : (∃ t, step s = .next t) ∨ (∃ f, step s = .fault f) := by
  cases hf : s.fetch with
  | error f => exact .inr ⟨f, step_of_fetch_error hf⟩
  | ok p =>
    obtain ⟨w, s1⟩ := p
    cases hd : decode w with
    | error e => exact .inr ⟨_, step_of_decode_error hf hd⟩
    | ok i =>
      rw [step_of_decode hf hd]
      rcases exec_completesOrFaults i s1 with ⟨t, he⟩ | ⟨a, n, he⟩ | ⟨a, he⟩ | ⟨a, k, he⟩ <;> rw [he]
      · exact .inl ⟨_, rfl⟩
      all_goals exact .inr ⟨_, rfl⟩

end Sys2Proof.Machine

namespace Sys2Proof.Proofs

open Sys2Proof Sys2Proof.Machine

/-- Settles O53: a write of a register that is not named is an update the instruction does not see; MRET names
none. -/
theorem onlyNamedRegistersMatter : Obligations.OnlyNamedRegistersMatter := by
  intro i s r v hr
  by_cases hi : i = .mret
  · subst hi
    exact exec_mret_writeReg s r v
  · exact (invisibleTo_writeReg hr v).exec_comm hi s

/-- Settles O55: each shared operation completes or raises one of the three faults, and so does every instruction. -/
theorem everyInstructionHasAMeaning : Obligations.EveryInstructionHasAMeaning :=
  ⟨exec_completesOrFaults, step_next_or_fault⟩

end Sys2Proof.Proofs
end
